-- ==== Sys2Proof/Word.lean ====
section
/-! DEFINITION. The word types of CSUM and the bits of a command word (spec/00_scope.md R8, R9; spec/30_encoding.md R47). -/

namespace Sys2Proof

/-- One byte of the stream (R34). -/
abbrev Byte := BitVec 8

/-- One 16-bit word: a lane of WACC (R19), a big-endian word (R58), the result (R21). -/
abbrev Word16 := BitVec 16

/-- The scalar accumulator's width (R18) and the reduction tree's output width (R77). -/
abbrev Word64 := BitVec 64

/-- The sixteen 16-bit lanes of WACC, lane 0 first (R19). -/
abbrev Lanes := Vector Word16 16

/-- The 32 bytes of one CHUNK, in stream order (R35). -/
abbrev Chunk := Vector Byte 32

/-- The 260-bit command word CW (R47). -/
abbrev CmdWord := BitVec 260

/-- Every lane zero. -/
def zeroLanes : Lanes := Vector.replicate 16 0

end Sys2Proof
end

