-- ==== Sys2Proof/Machine/Primitives.lean ====
section
/-! DEFINITION. The arithmetic every command uses (spec/40_reference.md R58 to R65), the reduction tree and the folding unit
(spec/42_finish.md R77, R80). All of it is unsigned (R71); sums are exact natural numbers until a rule narrows them (R10). -/

namespace Sys2Proof.Machine

/-- `beword(h, l) = (h << 8) | l` (R58). -/
def beword (h l : Byte) : Word16 := (h.zeroExtend 16 <<< 8) ||| l.zeroExtend 16

/-- One fold, for an unsigned integer of any width (R60). -/
def fold1 (x : Nat) : Nat := (x &&& 0xFFFF) + (x >>> 16)

/-- Fold at most `fuel` times, stopping when the value fits in 16 bits. -/
def foldFuel : Nat → Nat → Nat
  | 0, x => x
  | fuel + 1, x => if x ≤ 0xFFFF then x else foldFuel fuel (fold1 x)

/-- `FOLD16`: fold until the value fits in 16 bits (R61). A fold above 0xFFFF lowers the value, so `x` folds are enough. -/
def fold16 (x : Nat) : Nat := foldFuel x x

/-- `ocadd_W`, the one's-complement add: a carry out of bit W-1 is added back at bit 0 (R63). -/
def ocadd {w : Nat} (a b : BitVec w) : BitVec w :=
  let s := a.toNat + b.toNat
  if 2 ^ w ≤ s then BitVec.ofNat w (s - 2 ^ w + 1) else BitVec.ofNat w s

/-- `cpl16(s) = (~s) & 0xFFFF` (R65). -/
def cpl16 (s : Word16) : Word16 := ~~~s

/-- Stage 1 of the reduction tree: `M[j] = ocadd_16(WACC[j], WACC[j+8])` (R77). -/
def reduceStage1 (w : Lanes) : Vector Word16 8 := Vector.ofFn fun j => ocadd w[j.val] w[j.val + 8]

/-- Stage 2 of the reduction tree: `Q[j] = ocadd_16(M[j], M[j+4])` (R77). -/
def reduceStage2 (m : Vector Word16 8) : Vector Word16 4 := Vector.ofFn fun j => ocadd m[j.val] m[j.val + 4]

/-- `REDUCE_TREE(WACC) = {Q[3], Q[2], Q[1], Q[0]}` (R77). -/
def reduceTree (w : Lanes) : Word64 :=
  let q := reduceStage2 (reduceStage1 w)
  q[3] ++ q[2] ++ q[1] ++ q[0]

/-- The carry-folding unit: four cascaded folds, then bits 15 to 0 (R80). -/
def foldUnit (x : Word64) : Word16 := BitVec.ofNat 16 (fold1 (fold1 (fold1 (fold1 x.toNat))))

end Sys2Proof.Machine
end

