-- ==== Sys2Proof/Machine/Operands.lean ====
section
/-! DEFINITION. The operand forms: how CHUNK and BYTE weigh their bytes by the stream parity (spec/30_encoding.md R51). -/

namespace Sys2Proof.Machine

/-- The word a CHUNK adds to lane `k` (R51, R75): big-endian at even parity, the two bytes swapped at odd parity. -/
def laneWord (par : Bool) (bytes : Chunk) (k : Fin 16) : Word16 :=
  if par then beword bytes[2 * k.val + 1] bytes[2 * k.val] else beword bytes[2 * k.val] bytes[2 * k.val + 1]

/-- The sixteen words of a CHUNK (R75). -/
def laneWords (par : Bool) (bytes : Chunk) : Lanes := Vector.ofFn (laneWord par bytes)

/-- The value a BYTE adds to SACC (R51, R76): a high byte at even parity, a low byte at odd parity. -/
def byteValue (par : Bool) (b : Byte) : Word64 :=
  if par then b.zeroExtend 64 else b.zeroExtend 64 <<< 8

end Sys2Proof.Machine
end

