-- ==== Sys2Proof/Machine/State.lean ====
section
/-! DEFINITION. The state of CSUM (spec/10_state.md R17, R28, R30), what the host drives at a rising edge, the reset state
(spec/70_reset_and_hazards.md R106) and the reasons a step can stop. -/

namespace Sys2Proof.Machine

/-- One command in flight: accepted, not yet in effect (R30). -/
structure Pending where
  /-- The command word, sampled at acceptance (R45). -/
  word : CmdWord
  /-- How many rising edges must still pass before it takes effect (P_LAT, R116). -/
  lag : Nat
  deriving DecidableEq, Repr

/-- What the host drives on the input ports at one rising edge of `clk` (R28). -/
structure Edge where
  /-- `rst`. -/
  rst : Bool
  /-- `cmd_valid`. -/
  cmdValid : Bool
  /-- `cmd_op`. -/
  cmdOp : BitVec 4
  /-- `cmd_data`. -/
  cmdData : BitVec 256
  /-- The host keeps driving this entry, unchanged, until the command is accepted (R111). -/
  hold : Bool
  deriving DecidableEq, Repr

/-- The machine. The first six fields are the whole architectural state (R17). -/
structure State where
  /-- SACC, the scalar accumulator (R18). -/
  sacc : Word64
  /-- WACC, the wide accumulator, lane 0 first (R19). -/
  wacc : Lanes
  /-- PAR, the parity of the number of bytes absorbed (R20). -/
  par : Bool
  /-- RES, the result register (R21). -/
  res : Word16
  /-- RES_VALID: RES is the checksum of the current stream (R22). -/
  resValid : Bool
  /-- ERR, the sticky fault bit (R23). -/
  err : Bool
  /-- Commands accepted and not yet in effect, oldest first (R30, R42). -/
  inFlight : List Pending
  /-- For how many more rising edges `cmd_ready` is held low (P_LAT, R116). -/
  stall : Nat
  /-- The model's own: what the host drives at the coming rising edges, the next one first. Log entry 4. -/
  edges : List Edge
  /-- The model's own: the count of steps, the argument of every free value. Log entry 5. -/
  tick : Nat
  deriving DecidableEq, Repr

/-- Reasons to stop with a fault: none. The one fault of CSUM, ReservedCommand, is recorded in ERR and the machine goes on
(R93, R94, R97), so it is a next state. Log entry 7. -/
inductive Fault where
  deriving DecidableEq, Repr

/-- Reasons to refuse an instruction. -/
inductive Refusal where
  /-- Answered only by an arm of `exec` whose instruction has no meaning yet; safe. No arm answers it now. -/
  | notModelled (mnemonic : String)
  deriving DecidableEq, Repr

/-- The machine right after reset (R17, R106, R107): the six elements at the spec's reset values, nothing in flight. `stall`,
`edges` and `tick` are the model's choice (log entries 3, 4, 5). -/
def State.reset : State where
  sacc := 0
  wacc := zeroLanes
  par := false
  res := 0
  resValid := false
  err := false
  inFlight := []
  stall := 0
  edges := []
  tick := 0

end Sys2Proof.Machine
end

