-- ==== Sys2Proof/Machine/Flags.lean ====
section
/-! DEFINITION. The three flag bits PAR, RES_VALID and ERR (spec/10_state.md R20, R22, R23, R26): what each command does to
them, as named updates. -/

namespace Sys2Proof.Machine

/-- Write PAR. -/
def State.setPar (s : State) (v : Bool) : State := { s with par := v }

/-- Write RES_VALID. -/
def State.setResValid (s : State) (v : Bool) : State := { s with resValid := v }

/-- Write ERR. -/
def State.setErr (s : State) (v : Bool) : State := { s with err := v }

/-- PAR after one more byte: `PAR ^ 1` (R76). -/
def nextPar (par : Bool) : Bool := !par

end Sys2Proof.Machine
end

