-- ==== Sys2Proof/Machine/Ops.lean ====
section
/-! DEFINITION. The named operations over the registers, and taking the one exception of CSUM (spec/60_exceptions.md R93).
CSUM has no memory (spec/20_memory.md R32) and no return from an exception (spec/60_exceptions.md R98), so there is no
operation for either. -/

namespace Sys2Proof.Machine

/-- Write SACC. -/
def State.setSacc (s : State) (v : Word64) : State := { s with sacc := v }

/-- Write every lane of WACC. -/
def State.setWacc (s : State) (v : Lanes) : State := { s with wacc := v }

/-- Write RES. -/
def State.setRes (s : State) (v : Word16) : State := { s with res := v }

/-- Lane by lane end-around-carry add (R75). -/
def addLanes (w u : Lanes) : Lanes := Vector.ofFn fun k => ocadd w[k.val] u[k.val]

/-- SACC with the reduction tree's output added (R79, R83). -/
def State.reducedSacc (s : State) : Word64 := ocadd s.sacc (reduceTree s.wacc)

/-- Taking the exception ReservedCommand (R93, R97): ERR is set; nothing is saved, no mode and no control changes. -/
def State.raiseReservedCommand (s : State) : State := s.setErr true

/-- Reset of the six elements, and every command in flight discarded (R106). -/
def State.applyReset (s : State) : State :=
  { s with sacc := 0, wacc := zeroLanes, par := false, res := 0, resValid := false, err := false, inFlight := [] }

end Sys2Proof.Machine
end

