-- ==== Sys2Proof/Machine/Absorb.lean ====
section
/-! DEFINITION. The absorbing commands NOP, CLR, CHUNK and BYTE (spec/41_absorb.md). Every read is of the state before the
command (spec/00_scope.md R11), and what a meaning does not write keeps its value (R72). -/

namespace Sys2Proof.Machine

/-- NOP writes no state (R73). -/
def execNop (s : State) : Host.Outcome State Fault Refusal := .next s

/-- CLR starts a new stream (R74): RES and ERR are kept. -/
def execClr (s : State) : Host.Outcome State Fault Refusal :=
  .next ((((s.setSacc 0).setWacc zeroLanes).setPar false).setResValid false)

/-- CHUNK adds one word into each lane (R75): SACC, PAR, RES and ERR are kept. -/
def execChunk (bytes : Chunk) (s : State) : Host.Outcome State Fault Refusal :=
  .next ((s.setWacc (addLanes s.wacc (laneWords s.par bytes))).setResValid false)

/-- BYTE adds one weighted byte into SACC and toggles PAR (R76): WACC, RES and ERR are kept. -/
def execByte (b : Byte) (s : State) : Host.Outcome State Fault Refusal :=
  .next (((s.setSacc (ocadd s.sacc (byteValue s.par b))).setPar (nextPar s.par)).setResValid false)

end Sys2Proof.Machine
end

