-- ==== Sys2Proof/Machine/Finish.lean ====
section
/-! DEFINITION. The finishing commands REDUCE, FOLD and FINAL (spec/42_finish.md). -/

namespace Sys2Proof.Machine

/-- REDUCE moves the lanes into SACC through the reduction tree (R79): PAR, RES, RES_VALID and ERR are kept. -/
def execReduce (s : State) : Host.Outcome State Fault Refusal :=
  .next ((s.setSacc s.reducedSacc).setWacc zeroLanes)

/-- FOLD folds SACC to 16 bits in place (R82): everything else is kept. -/
def execFold (s : State) : Host.Outcome State Fault Refusal :=
  .next (s.setSacc ((foldUnit s.sacc).zeroExtend 64))

/-- FINAL reduces, folds and latches the complement (R83): PAR and ERR are kept. -/
def execFinal (s : State) : Host.Outcome State Fault Refusal :=
  let f := foldUnit s.reducedSacc
  .next ((((s.setSacc (f.zeroExtend 64)).setWacc zeroLanes).setRes (cpl16 f)).setResValid true)

end Sys2Proof.Machine
end

