-- ==== Sys2Proof/Machine/Reserved.lean ====
section
/-! DEFINITION. The reserved opcodes (spec/60_exceptions.md R93): their meaning is to take ReservedCommand. -/

namespace Sys2Proof.Machine

/-- Opcode 0x7. -/
def execReserved7 (s : State) : Host.Outcome State Fault Refusal := .next s.raiseReservedCommand

/-- Opcodes 0x8 to 0xF: the opcode is not recorded (R94). An ill-formed term, with an opcode below 0x8, stands for no word and gets
the same meaning: DESIGN CHOICE, log entry 8. -/
def execReservedHigh (_op : BitVec 4) (s : State) : Host.Outcome State Fault Refusal := .next s.raiseReservedCommand

end Sys2Proof.Machine
end

