-- ==== Sys2Proof/Syntax.lean ====
section
/-! DEFINITION. The commands of CSUM: one constructor for each row of spec/opcode_table.json (spec/30_encoding.md R48). -/

namespace Sys2Proof

/-- A command as the decoder hands it to the machine. Ignored data bits are not part of it (R49, R50). -/
inductive Instr where
  /-- NOP, op 0x0 (R73). -/
  | nop
  /-- CLR, op 0x1 (R74). -/
  | clr
  /-- CHUNK, op 0x2, with its 32 bytes in stream order (R75). -/
  | chunk (bytes : Chunk)
  /-- BYTE, op 0x3, with its byte (R76). -/
  | byte (b : Byte)
  /-- REDUCE, op 0x4 (R79). -/
  | reduce
  /-- FOLD, op 0x5 (R82). -/
  | fold
  /-- FINAL, op 0x6 (R83). -/
  | final
  /-- RESERVED, the table's row op 0x7 (R93). -/
  | reserved7
  /-- RESERVED, the table's row op 0x8 to 0xF, with its opcode (R93). -/
  | reservedHigh (op : BitVec 4)
  deriving DecidableEq, Repr

/-- The opcode field of a command's word (R48). -/
def Instr.opcode : Instr → BitVec 4
  | .nop => 0x0
  | .clr => 0x1
  | .chunk _ => 0x2
  | .byte _ => 0x3
  | .reduce => 0x4
  | .fold => 0x5
  | .final => 0x6
  | .reserved7 => 0x7
  | .reservedHigh op => op

end Sys2Proof
end

