-- ==== Sys2Proof/Machine/Dispatch.lean ====
section
/-! DEFINITION. One arm for each constructor of Instr, each one call of its meaning. -/

namespace Sys2Proof.Machine

def exec (i : Instr) (s : State) : Host.Outcome State Fault Refusal :=
  match i with
  | .nop => Sys2Proof.Machine.execNop s
  | .clr => Sys2Proof.Machine.execClr s
  | .chunk bytes => Sys2Proof.Machine.execChunk bytes s
  | .byte b => Sys2Proof.Machine.execByte b s
  | .reduce => Sys2Proof.Machine.execReduce s
  | .fold => Sys2Proof.Machine.execFold s
  | .final => Sys2Proof.Machine.execFinal s
  | .reserved7 => Sys2Proof.Machine.execReserved7 s
  | .reservedHigh op => Sys2Proof.Machine.execReservedHigh op s

end Sys2Proof.Machine
end

