-- ==== Sys2Proof/Config.lean ====
section
/-! DEFINITION. What the spec leaves open, as constants without a body.

The parameters with a value (spec/00_scope.md R8: 32-byte chunks, sixteen 16-bit lanes, a 64-bit SACC, four fold stages, a
4-bit opcode, 256 data bits) are the widths and bounds written in the types and definitions of the other files. P_BASE is
outside the block (spec/20_memory.md R40). P_LAT and the unspecified port values are below: each is applied to the count of
steps, so that every draw is fresh, and nothing in Lean can find out a value. -/

namespace Sys2Proof

/-- P_LAT, first part (R116): how many rising edges after its acceptance a command takes effect. Log entry 2. -/
opaque Config.acceptLag : Nat → Nat

/-- P_LAT, second part (R116, R107): for how many rising edges `cmd_ready` is held low next. Log entry 3. -/
opaque Config.readyStall : Nat → Nat

/-- What `res` shows while its value is unspecified (R29, R112, U3). Log entry 6. -/
opaque Config.resDraw : Nat → Word16

/-- What `res_valid` shows while its value is unspecified (R29, R112, U3). Log entry 6. -/
opaque Config.resValidDraw : Nat → Bool

/-- What `par` shows while its value is unspecified (R29, R112, U3). Log entry 6. -/
opaque Config.parDraw : Nat → Bool

/-- What `err` shows while its value is unspecified (R29, R112, U3). Log entry 6. -/
opaque Config.errDraw : Nat → Bool

end Sys2Proof
end

