-- ==== Sys2Proof/WellFormed.lean ====
section
/-! DEFINITION. Which terms of Instr stand for a command word. Every operand but one is bounded by its type. -/

namespace Sys2Proof

/-- Only the row op 0x8 to 0xF has a check: its opcode lies in that range (R52, spec/opcode_table.json). -/
def Instr.wellFormed : Instr → Bool
  | .nop => true
  | .clr => true
  | .chunk _ => true
  | .byte _ => true
  | .reduce => true
  | .fold => true
  | .final => true
  | .reserved7 => true
  | .reservedHigh op => decide (0x8#4 ≤ op)

end Sys2Proof
end

