-- ==== Sys2Proof/Decode.lean ====
section
/-! DEFINITION. The decoder, total over all 2^260 command words (spec/30_encoding.md R47 to R53), and the encoder. No word is
rejected: every opcode has exactly one meaning (R52), so the decoder's answer for a word that is no defined command is a
RESERVED command, by name. -/

namespace Sys2Proof

/-- `op = CW[259:256]` (R47). -/
def CmdWord.op (w : CmdWord) : BitVec 4 := w.extractLsb' 256 4

/-- `data = CW[255:0]` (R47). -/
def CmdWord.data (w : CmdWord) : BitVec 256 := w.extractLsb' 0 256

/-- The command word of an opcode and its data (R47). -/
def CmdWord.mk (op : BitVec 4) (data : BitVec 256) : CmdWord := op ++ data

/-- Data byte `j` is `cmd_data[8j+7:8j]` (R35). -/
def dataByte (data : BitVec 256) (j : Nat) : Byte := data.extractLsb' (8 * j) 8

/-- The 32 bytes of the data field, byte 0 (the least significant) first (R35, R49). -/
def dataBytes (data : BitVec 256) : Chunk := Vector.ofFn fun j => dataByte data j.val

/-- The number whose least significant byte is the head of the list. -/
def littleEndian : List Byte → Nat
  | [] => 0
  | b :: bs => b.toNat + 256 * littleEndian bs

/-- The data field that holds 32 bytes, byte 0 least significant (R35). -/
def packBytes (bytes : Chunk) : BitVec 256 := BitVec.ofNat 256 (littleEndian bytes.toList)

/-- The opcode map (R48): it looks at `op`, and at the data bits the opcode uses (R49), and at no other bit. -/
def decode (w : CmdWord) : Instr :=
  match CmdWord.op w with
  | 0x0#4 => .nop
  | 0x1#4 => .clr
  | 0x2#4 => .chunk (dataBytes (CmdWord.data w))
  | 0x3#4 => .byte (dataByte (CmdWord.data w) 0)
  | 0x4#4 => .reduce
  | 0x5#4 => .fold
  | 0x6#4 => .final
  | 0x7#4 => .reserved7
  | op => .reservedHigh op

/-- The data field of a command: its operand, and 0 in every ignored bit (R49, R54). -/
def encodeData : Instr → BitVec 256
  | .nop => 0
  | .clr => 0
  | .chunk bytes => packBytes bytes
  | .byte b => b.zeroExtend 256
  | .reduce => 0
  | .fold => 0
  | .final => 0
  | .reserved7 => 0
  | .reservedHigh _ => 0

/-- The command word of a well-formed command, ignored bits 0 (R54). -/
def encode (i : Instr) : CmdWord := CmdWord.mk i.opcode (encodeData i)

/-- The data bits an opcode uses (R49), as a mask: all for CHUNK, the low eight for BYTE, none for the others. -/
def usedMask (op : BitVec 4) : BitVec 256 :=
  if op = 0x2 then BitVec.allOnes 256 else if op = 0x3 then 0xFF else 0

/-- A command word with its ignored bits cleared (R49, R50). -/
def canonicalWord (w : CmdWord) : CmdWord :=
  CmdWord.mk (CmdWord.op w) (CmdWord.data w &&& usedMask (CmdWord.op w))

/-- The word the table numbers `w`, cut to `nbits` bits: the table's bit 0 is CW[0]. -/
def tableWord (nbits w : Nat) : CmdWord := BitVec.ofNat 260 (w % 2 ^ nbits)

/-- The decoder on a row's word as spec/opcode_table.json numbers bits. A number with a bit above CW[259] is no command word
(R53: every command is one 260-bit word). -/
def decodeTableWord (nbits w : Nat) : Option Instr :=
  if (w % 2 ^ nbits) >>> 260 = 0 then some (decode (tableWord nbits w)) else none

end Sys2Proof
end

