-- ==== Sys2Proof/Machine/Ports.lean ====
section
/-! DEFINITION. The ports of CSUM (spec/10_state.md R28, R29), the handshake and reset at a rising edge of `clk`
(spec/70_reset_and_hazards.md R106, R111), and the queue of commands in flight (R30, R42). -/

namespace Sys2Proof.Machine

/-- The host presents nothing and does not reset. -/
def Edge.quiet : Edge := ⟨false, false, 0, 0, false⟩

/-- The host presents a command word for one edge, accepted or not. -/
def Edge.offer (w : CmdWord) : Edge := ⟨false, true, CmdWord.op w, CmdWord.data w, false⟩

/-- The host presents a command word and holds it, unchanged, until it is accepted (R111). -/
def Edge.present (w : CmdWord) : Edge := ⟨false, true, CmdWord.op w, CmdWord.data w, true⟩

/-- The host drives `rst = 1` for one edge. -/
def Edge.reset : Edge := ⟨true, false, 0, 0, false⟩

/-- The command word on the input ports (R47). -/
def Edge.word (e : Edge) : CmdWord := CmdWord.mk e.cmdOp e.cmdData

/-- What the host drives in this cycle. When the list is used up, the host drives nothing. -/
def State.pins (s : State) : Edge := s.edges.headD Edge.quiet

/-- `cmd_ready` (R28): low while the block stalls the host and while `rst = 1` (R106, R111). -/
def State.cmdReady (s : State) : Bool := decide (s.stall = 0) && !s.pins.rst

/-- A command is accepted at this edge: `cmd_valid`, `cmd_ready` and not `rst` (R111). -/
def State.accepting (s : State) : Bool := s.pins.cmdValid && s.cmdReady && !s.pins.rst

/-- `idle`: every accepted command has taken effect (R28). -/
def State.idle (s : State) : Bool := s.inFlight.isEmpty

/-- The oldest command in flight, when its time has come. Commands take effect in acceptance order (R42). -/
def State.due (s : State) : Option CmdWord :=
  match s.inFlight with
  | [] => none
  | p :: _ => if p.lag = 0 then some p.word else none

/-- The oldest command leaves the queue, to take effect. -/
def State.retire (s : State) : State := { s with inFlight := s.inFlight.tail, tick := s.tick + 1 }

/-- One edge nearer to its effect. -/
def Pending.age (p : Pending) : Pending := { p with lag := p.lag - 1 }

/-- What the command just accepted adds to the queue; how long it takes is free (R116). -/
def State.accepted (s : State) : List Pending :=
  if s.accepting then [⟨s.pins.word, Config.acceptLag s.tick⟩] else []

/-- The host's coming edges after this one: a held command that was not accepted stays (R111). -/
def State.restEdges (s : State) : List Edge :=
  if s.pins.hold && s.pins.cmdValid && !s.pins.rst && !s.accepting then s.edges else s.edges.tail

/-- How long `cmd_ready` stays low from here: counted down, and free again when it has been high (R116). -/
def State.nextStall (s : State) : Nat := if s.stall = 0 then Config.readyStall s.tick else s.stall - 1

/-- A rising edge with `rst = 1` (R106): reset, whatever is presented (R96). When `cmd_ready` rises next is free (R107). -/
def State.resetEdge (s : State) : State :=
  { s.applyReset with edges := s.restEdges, stall := Config.readyStall s.tick, tick := s.tick + 1 }

/-- A rising edge with `rst = 0` (R111): a command is accepted or not; the six elements are held (R105). -/
def State.runEdge (s : State) : State :=
  { s with
    inFlight := s.inFlight.map Pending.age ++ s.accepted
    edges := s.restEdges
    stall := s.nextStall
    tick := s.tick + 1 }

/-- One rising edge of `clk`. -/
def State.clockEdge (s : State) : State := if s.pins.rst then s.resetEdge else s.runEdge

/-- FINAL alone writes RES (R17). -/
def writesRes : Instr → Bool
  | .nop => false
  | .clr => false
  | .chunk _ => false
  | .byte _ => false
  | .reduce => false
  | .fold => false
  | .final => true
  | .reserved7 => false
  | .reservedHigh _ => false

/-- CLR, CHUNK, BYTE and FINAL write RES_VALID (R17). -/
def writesResValid : Instr → Bool
  | .nop => false
  | .clr => true
  | .chunk _ => true
  | .byte _ => true
  | .reduce => false
  | .fold => false
  | .final => true
  | .reserved7 => false
  | .reservedHigh _ => false

/-- CLR and BYTE write PAR (R17). -/
def writesPar : Instr → Bool
  | .nop => false
  | .clr => true
  | .chunk _ => false
  | .byte _ => true
  | .reduce => false
  | .fold => false
  | .final => false
  | .reserved7 => false
  | .reservedHigh _ => false

/-- A reserved command writes ERR (R17). -/
def writesErr : Instr → Bool
  | .nop => false
  | .clr => false
  | .chunk _ => false
  | .byte _ => false
  | .reduce => false
  | .fold => false
  | .final => false
  | .reserved7 => true
  | .reservedHigh _ => true

/-- An output is to be relied on in this cycle: `idle = 1` (R29), and no command that writes what it shows is being accepted
(R112, U3). Log entry 6. -/
def State.settledFor (writes : Instr → Bool) (s : State) : Bool :=
  s.idle && !(s.accepting && writes (decode s.pins.word))

/-- `res`: RES, or an unspecified value (R29). -/
def State.resPort (s : State) : Word16 := if s.settledFor writesRes then s.res else Config.resDraw s.tick

/-- `res_valid`: RES_VALID, or an unspecified value (R29). -/
def State.resValidPort (s : State) : Bool :=
  if s.settledFor writesResValid then s.resValid else Config.resValidDraw s.tick

/-- `par`: PAR, or an unspecified value (R29). -/
def State.parPort (s : State) : Bool := if s.settledFor writesPar then s.par else Config.parDraw s.tick

/-- `err`: ERR, or an unspecified value (R29). -/
def State.errPort (s : State) : Bool := if s.settledFor writesErr then s.err else Config.errDraw s.tick

end Sys2Proof.Machine
end

