-- ==== Sys2Proof/Machine/Step.lean ====
section
/-! DEFINITION. One step of the machine: the oldest command in flight takes effect when its time has come, atomically and in
acceptance order (spec/10_state.md R16, spec/20_memory.md R39, R42); otherwise one rising edge of `clk` passes
(spec/70_reset_and_hazards.md R106, R111). Log entry 1. -/

namespace Sys2Proof.Machine

/-- The one step function. -/
def step (s : State) : Host.Outcome State Fault Refusal :=
  match s.due with
  | some w => exec (decode w) s.retire
  | none => .next s.clockEdge

/-- `s` with the table's word `w` as the command that takes effect next: at the head of the queue, its time come. CSUM fetches
nothing (R25); a command comes to the queue by acceptance on the command port. Log entry 4. -/
def State.withFetchWord (s : State) (nbits w : Nat) : State :=
  { s with inFlight := ⟨tableWord nbits w, 0⟩ :: s.inFlight }

end Sys2Proof.Machine
end

