-- ==== Sys2Proof/Machine/Reference.lean ====
section
/-! DEFINITION. The reference checksum, the source's Scalar Engine (spec/40_reference.md R59, R66, R70). It is no command: it is
the meaning of "correct" for the block's output (R2, R89). -/

namespace Sys2Proof.Machine

/-- The contribution of a byte at a stream position (R59): a high byte at an even position, a low byte at an odd one. -/
def contrib (b : Byte) (p : Nat) : Nat := if p % 2 = 0 then b.toNat <<< 8 else b.toNat

/-- The sum of the contributions of a list of bytes whose first stands at position `p`. -/
def weightedFrom : Nat → List Byte → Nat
  | _, [] => 0
  | p, b :: bs => contrib b p + weightedFrom (p + 1) bs

/-- `T(data)` (R59). -/
def weightedSum (data : List Byte) : Nat := weightedFrom 0 data

/-- `if sum > 0xFFFF: sum = fold1(sum)` (R66). -/
def guardedFold (sum : Nat) : Nat := if sum > 0xFFFF then fold1 sum else sum

/-- Steps 2 and 3 of R66: whole words with a fold after each, then an odd trailing byte as a high byte. -/
def scalarLoop : Nat → List Byte → Nat
  | sum, h :: l :: rest => scalarLoop (guardedFold (sum + (beword h l).toNat)) rest
  | sum, [b] => guardedFold (sum + b.toNat <<< 8)
  | sum, [] => sum

/-- `checksum_ref(data)` (R66). -/
def checksumRef (data : List Byte) : Word16 := cpl16 (BitVec.ofNat 16 (guardedFold (scalarLoop 0 data)))

/-- The folded sum `s(X) = FOLD16(T(X))` (R70). -/
def foldedSum (data : List Byte) : Nat := fold16 (weightedSum data)

/-- `swap16(x) = ((x << 8) | (x >> 8)) & 0xFFFF` (R70). -/
def swap16 (x : Nat) : Nat := ((x <<< 8) ||| (x >>> 8)) &&& 0xFFFF

end Sys2Proof.Machine
end

