-- ==== Sys2Proof/Machine/HostSequence.lean ====
section
/-! DEFINITION. The stream (spec/20_memory.md R34), sequences of commands, and the canonical host sequence
(spec/43_host_sequence.md R85). -/

namespace Sys2Proof.Machine

/-- The stream after a command (R34). -/
def streamAfter : Instr → List Byte → List Byte
  | .nop, stream => stream
  | .clr, _ => []
  | .chunk bytes, stream => stream ++ bytes.toList
  | .byte b, stream => stream ++ [b]
  | .reduce, stream => stream
  | .fold, stream => stream
  | .final, stream => stream
  | .reserved7, stream => stream
  | .reservedHigh _, stream => stream

/-- The stream after a sequence of commands, in acceptance order (R34). -/
def streamAfterAll : List Instr → List Byte → List Byte
  | [], stream => stream
  | i :: is, stream => streamAfterAll is (streamAfter i stream)

/-- The stream after one step of the machine: a command that takes effect, a reset edge, or neither (R34). -/
def streamAfterStep (s : State) (stream : List Byte) : List Byte :=
  match s.due with
  | some w => streamAfter (decode w) stream
  | none => if s.pins.rst then [] else stream

/-- A sequence of commands, each taking effect after the one before it (R42). -/
def execAll : List Instr → State → Host.Outcome State Fault Refusal
  | [], s => .next s
  | i :: is, s =>
    match exec i s with
    | .next t => execAll is t
    | .fault r => .fault r
    | .refused r => .refused r

/-- `k` steps of the machine, stopping at the first that answers no next state: the interface's `Host.Core.run` of this machine
(Laws/Step.lean proves the two equal). -/
def runSteps : Nat → State → Host.Outcome State Fault Refusal
  | 0, s => .next s
  | k + 1, s =>
    match step s with
    | .next t => runSteps k t
    | .fault r => .fault r
    | .refused r => .refused r

/-- `B[j] = data[i + j]` for the first 32 bytes of what is left (R85). -/
def takeChunk (rest : List Byte) : Chunk := Vector.ofFn fun j => rest.getD j.val 0

/-- The two loops of R85: `n` whole chunks, then one BYTE for each byte that is left. -/
def hostLoops : Nat → List Byte → List Instr
  | 0, rest => rest.map Instr.byte
  | n + 1, rest => .chunk (takeChunk rest) :: hostLoops n (rest.drop 32)

/-- The canonical host sequence (R85): CLR, floor(N / 32) CHUNKs, N mod 32 BYTEs, FINAL. -/
def hostSequence (data : List Byte) : List Instr := .clr :: (hostLoops (data.length / 32) data ++ [.final])

/-- The Scalar Engine's shape (R86): the same with every byte as a BYTE command. -/
def bytewiseSequence (data : List Byte) : List Instr := .clr :: (data.map Instr.byte ++ [.final])

/-- The host presents the commands one after the other, holding each until it is accepted (R111). -/
def presentAll (is : List Instr) : List Edge := is.map fun i => Edge.present (encode i)

/-- `A = SACC + Σ WACC[k]`, an exact number (R87). -/
def State.total (s : State) : Nat := s.sacc.toNat + (s.wacc.toList.map BitVec.toNat).sum

/-- The six elements of R17, apart from everything that is in flight. -/
structure Elements where
  /-- SACC. -/
  sacc : Word64
  /-- WACC. -/
  wacc : Lanes
  /-- PAR. -/
  par : Bool
  /-- RES. -/
  res : Word16
  /-- RES_VALID. -/
  resValid : Bool
  /-- ERR. -/
  err : Bool
  deriving DecidableEq, Repr

/-- The six elements of a state (R17). -/
def State.elements (s : State) : Elements := ⟨s.sacc, s.wacc, s.par, s.res, s.resValid, s.err⟩

/-- The commands in flight, oldest first (R30). -/
def State.queue (s : State) : List Instr := s.inFlight.map fun p => decode p.word

end Sys2Proof.Machine
end

