-- ==== Sys2Proof/Machine/Assembler.lean ====
section
/-! DEFINITION. CSUM assembly (spec/30_encoding.md R54 to R56): lines of text, statements and the command words they stand for.
It runs outside the block and leaves no trace in it (R56). Text is a list of characters, so that Lean's kernel can read it.
What R54 and R56 leave open about the text is in log entry 12. -/

namespace Sys2Proof.Machine

/-- One statement of CSUM assembly, its operands as numbers, digits or bytes (R54, R56). -/
inductive Asm where
  /-- `NOP`. -/
  | nop
  /-- `CLR`. -/
  | clr
  /-- `CHUNK <hex64>`: the digits as written. -/
  | chunk (digits : List Char)
  /-- `BYTE <imm8>`. -/
  | byte (n : Nat)
  /-- `REDUCE`. -/
  | reduce
  /-- `FOLD`. -/
  | fold
  /-- `FINAL`. -/
  | final
  /-- `WORD <imm16>`. -/
  | word (n : Nat)
  /-- `TAIL b0, b1, ...`. -/
  | tail (ns : List Nat)
  /-- `CSUM "<bytes>"` or `CSUM <hex>`. -/
  | csum (data : List Byte)
  /-- `RAW <op>, <data>`. -/
  | raw (op data : Nat)
  deriving DecidableEq, Repr

/-- The value of a hexadecimal digit, in either case. -/
def hexDigit (c : Char) : Option Nat :=
  let n := c.toNat
  if 48 ≤ n ∧ n ≤ 57 then some (n - 48)
  else if 97 ≤ n ∧ n ≤ 102 then some (n - 87)
  else if 65 ≤ n ∧ n ≤ 70 then some (n - 55)
  else none

/-- The value of a decimal digit. -/
def decDigit (c : Char) : Option Nat := if 48 ≤ c.toNat ∧ c.toNat ≤ 57 then some (c.toNat - 48) else none

/-- The number a list of digits stands for after the number `acc`, most significant digit first. -/
def readDigits (digit : Char → Option Nat) (base : Nat) : Nat → List Char → Option Nat
  | acc, [] => some acc
  | acc, c :: cs =>
    match digit c with
    | some d => readDigits digit base (base * acc + d) cs
    | none => none

/-- A number: hexadecimal after `0x`, else decimal (R54). At least one digit, and the prefix in lower case (log entry 12). -/
def readNumber : List Char → Option Nat
  | [] => none
  | ['0', 'x'] => none
  | '0' :: 'x' :: cs => readDigits hexDigit 16 0 cs
  | cs => readDigits decDigit 10 0 cs

/-- Digit pairs as bytes, the leftmost pair first in stream order (R55). An odd number of digits is an assembly error: stated for
CHUNK, whose literal has 64 (R54), and DESIGN CHOICE for `CSUM <hex>`, where R56 leaves it open (log entry 12). -/
def hexBytes : List Char → Option (List Byte)
  | [] => some []
  | [_] => none
  | a :: b :: rest =>
    match hexDigit a, hexDigit b, hexBytes rest with
    | some x, some y, some bytes => some (BitVec.ofNat 8 (16 * x + y) :: bytes)
    | _, _, _ => none

/-- An operand of at most `bound`, as the byte or word it names. -/
def inRange (bound n : Nat) : Option Nat := if n ≤ bound then some n else none

/-- The BYTE commands of a list of operands, each in 0..255 (R54). -/
def byteCommands : List Nat → Option (List Instr)
  | [] => some []
  | n :: ns =>
    match inRange 255 n, byteCommands ns with
    | some m, some is => some (.byte (BitVec.ofNat 8 m) :: is)
    | _, _ => none

/-- The command words of a statement; `none` is an assembly error (R54, R56). Ignored bits are 0. -/
def Asm.words : Asm → Option (List CmdWord)
  | .nop => some [encode .nop]
  | .clr => some [encode .clr]
  | .chunk digits =>
    if digits.length = 64 then (hexBytes digits).map fun bytes => [encode (.chunk (takeChunk bytes))] else none
  | .byte n => (byteCommands [n]).map fun is => is.map encode
  | .reduce => some [encode .reduce]
  | .fold => some [encode .fold]
  | .final => some [encode .final]
  | .word n => (inRange 0xFFFF n).bind fun m => (byteCommands [m / 256, m % 256]).map fun is => is.map encode
  | .tail ns => (byteCommands ns).map fun is => is.map encode
  | .csum data => some ((hostSequence data).map encode)
  | .raw op data =>
    if op ≤ 15 ∧ data < 2 ^ 256 then some [CmdWord.mk (BitVec.ofNat 4 op) (BitVec.ofNat 256 data)] else none

/-- A blank within a line (log entry 12). -/
def isBlank (c : Char) : Bool := c = ' ' || c = '\t' || c = '\r'

/-- The characters without the blanks at both ends. -/
def trimBlanks (cs : List Char) : List Char := ((cs.dropWhile isBlank).reverse.dropWhile isBlank).reverse

/-- The line up to the `;` that starts its comment (R54); a `;` between double quotes is a byte of a CSUM operand (log
entry 12). -/
def dropComment : Bool → List Char → List Char
  | _, [] => []
  | quoted, c :: cs =>
    if c = ';' && !quoted then [] else c :: dropComment (if c = '"' then !quoted else quoted) cs

/-- The pieces of a text between separators. -/
def splitAt (sep : Char) : List Char → List (List Char)
  | [] => [[]]
  | c :: cs =>
    match splitAt sep cs with
    | [] => [[c]]
    | p :: ps => if c = sep then [] :: p :: ps else (c :: p) :: ps

/-- A mnemonic may be written in any case (R54). -/
def upperCase (c : Char) : Char := if 97 ≤ c.toNat ∧ c.toNat ≤ 122 then Char.ofNat (c.toNat - 32) else c

/-- Every value of a list, or nothing. -/
def allOf : List (Option Nat) → Option (List Nat)
  | [] => some []
  | none :: _ => none
  | some n :: rest => (allOf rest).map fun ns => n :: ns

/-- The comma-separated numbers of an operand text (R56, log entry 12). -/
def readNumbers (cs : List Char) : Option (List Nat) := allOf ((splitAt ',' cs).map fun piece => readNumber (trimBlanks piece))

/-- The bytes of a quoted text: one byte for each character, up to the closing quote that ends the operand (log entry 12). -/
def quotedBytes : List Char → Option (List Byte)
  | [] => none
  | ['"'] => some []
  | c :: cs =>
    if c.toNat < 128 ∧ c ≠ '"' then (quotedBytes cs).map fun bytes => BitVec.ofNat 8 c.toNat :: bytes else none

/-- The operand of CSUM (R56). DESIGN CHOICE for `CSUM <hex>` (log entry 12): digit pairs without a prefix, so a `0x` before them
is an assembly error, and so is an odd number of digits. -/
def csumBytes : List Char → Option (List Byte)
  | '"' :: cs => quotedBytes cs
  | [] => none
  | cs => hexBytes cs

/-- A statement without operands; text after its mnemonic is an assembly error (log entry 12). -/
def bare (a : Asm) : List Char → Option Asm
  | [] => some a
  | _ => none

/-- A mnemonic and its operand text, as a statement (R54, R56). -/
def readStatement (mnemonic operands : List Char) : Option Asm :=
  if mnemonic = ['N', 'O', 'P'] then bare .nop operands
  else if mnemonic = ['C', 'L', 'R'] then bare .clr operands
  else if mnemonic = ['C', 'H', 'U', 'N', 'K'] then some (.chunk operands)
  else if mnemonic = ['B', 'Y', 'T', 'E'] then (readNumber operands).map Asm.byte
  else if mnemonic = ['R', 'E', 'D', 'U', 'C', 'E'] then bare .reduce operands
  else if mnemonic = ['F', 'O', 'L', 'D'] then bare .fold operands
  else if mnemonic = ['F', 'I', 'N', 'A', 'L'] then bare .final operands
  else if mnemonic = ['W', 'O', 'R', 'D'] then (readNumber operands).map Asm.word
  else if mnemonic = ['T', 'A', 'I', 'L'] then (readNumbers operands).map Asm.tail
  else if mnemonic = ['C', 'S', 'U', 'M'] then (csumBytes operands).map Asm.csum
  else if mnemonic = ['R', 'A', 'W'] then
    match readNumbers operands with
    | some [op, data] => some (.raw op data)
    | _ => none
  else none

/-- The command words of one line (R54); `none` is an assembly error. DESIGN CHOICE (log entry 12): R54 says 'one command per line'
and is silent on a line without a statement, one that is empty or holds only blanks or a comment; here it stands for no word and is
no error. -/
def assembleLine (line : List Char) : Option (List CmdWord) :=
  let text := trimBlanks (dropComment false line)
  if text = [] then some []
  else
    let mnemonic := text.takeWhile fun c => !isBlank c
    let operands := trimBlanks (text.dropWhile fun c => !isBlank c)
    (readStatement (mnemonic.map upperCase) operands).bind Asm.words

/-- The command words of a list of lines, in order. -/
def assembleLines : List (List Char) → Option (List CmdWord)
  | [] => some []
  | line :: rest =>
    match assembleLine line, assembleLines rest with
    | some ws, some more => some (ws ++ more)
    | _, _ => none

/-- The command words of a text, one statement a line (R54). -/
def assemble (text : List Char) : Option (List CmdWord) := assembleLines (splitAt '\n' text)

end Sys2Proof.Machine
end

