-- ==== Sys2Proof/Safety.lean ====
section
/-! DEFINITION. What counts as a good run, in the terms the statements use (spec/43_host_sequence.md R87,
spec/60_exceptions.md R94, spec/70_reset_and_hazards.md R112). -/

namespace Sys2Proof.Machine

/-- The state represents a stream: the invariant of R87, items 1 to 4. -/
structure Represents (stream : List Byte) (s : State) : Prop where
  /-- Item 1: `A ≡ T(S) (mod 0xFFFF)`. -/
  congr : s.total % 0xFFFF = weightedSum stream % 0xFFFF
  /-- Item 2: `A = 0` exactly when every byte of `S` is 0. -/
  zero : s.total = 0 ↔ ∀ b ∈ stream, b = 0
  /-- Item 3: `PAR = |S| mod 2`. -/
  parity : s.par = decide (stream.length % 2 = 1)
  /-- Item 4: if `RES_VALID = 1` then `RES = checksum_ref(S)`. -/
  result : s.resValid = true → s.res = checksumRef stream

/-- What item 4 of R87 says of the state alone: a valid RES is the complement of the folded `A`. -/
def State.resultFits (s : State) : Prop := s.resValid = true → s.res = cpl16 (BitVec.ofNat 16 (fold16 s.total))

/-- A claim about a command run takes `err = 0` at its end as a premise (R94). -/
def State.noReservedSeen (s : State) : Prop := s.err = false

/-- The host may take `res` as the checksum (R112, R22, R94): `idle = 1`, and the ports show `res_valid = 1` and `err = 0`. -/
def State.resultReadable (s : State) : Prop := s.idle = true ∧ s.resValidPort = true ∧ s.errPort = false

end Sys2Proof.Machine
end

