-- ==== Sys2Proof/Certificates/Slice0/Obligations.lean ====
section
/-! DEFINITION. The statements about the model, each with the rule of the spec it formalises. -/

open Sys2Proof Sys2Proof.Machine

/-! ## Reset, boot, the ports and the step -/

/-- The reset state holds the reset values of R17's table, an empty queue, and shows `idle = 1` and `cmd_ready = 1`. The level
of `cmd_ready` is the model's choice (log entry 3), and so are the empty `edges` (4) and the count 0 (5). -/
def Obligations.ResetStateHoldsTheTablesValues : Prop :=
  State.reset.sacc = 0x0000000000000000 ∧ (∀ k (_ : k < 16), State.reset.wacc[k] = 0x0000) ∧
    State.reset.par = false ∧ State.reset.res = 0x0000 ∧ State.reset.resValid = false ∧ State.reset.err = false ∧
    State.reset.inFlight = [] ∧ State.reset.idle = true ∧ State.reset.cmdReady = true

/-- R106: a rising edge with `rst = 1` resets every element, discards every command in flight and accepts none, whatever is
presented (R96); `cmd_ready` is 0 in that cycle. As a transition, reset leads from any state at all to the reset state. Two things
are the model's and not R106's: the step takes the reset edge only once the commands whose time has come are done (log entry 1,
DEDUCED), and the host's next edge is then on the ports, the clause `t.edges = s.edges.tail` (log entry 4, DESIGN CHOICE). -/
def Obligations.ResetEdgeResetsEverything : Prop :=
  (∀ s : State, s.resetEdge.elements = State.reset.elements ∧ s.resetEdge.inFlight = []) ∧
  ∀ s : State, s.due = none → s.pins.rst = true →
    step s = .next s.resetEdge ∧ s.cmdReady = false ∧ s.accepting = false ∧
      ∃ t, step s = .next t ∧ t.sacc = 0 ∧ (∀ k (_ : k < 16), t.wacc[k] = 0) ∧ t.par = false ∧ t.res = 0x0000 ∧
        t.resValid = false ∧ t.err = false ∧ t.inFlight = [] ∧ t.idle = true ∧ t.edges = s.edges.tail

/-- R107: after a reset edge the stream is empty and `idle = 1`, and FINAL gives 0xFFFF. How long `cmd_ready` then stays low is free
(log entry 3); that the edge comes with no command due is the model's schedule (log entry 1). -/
def Obligations.AfterResetTheStreamIsEmpty : Prop :=
  ∀ s : State, s.due = none → s.pins.rst = true →
    ∃ t, step s = .next t ∧ t.idle = true ∧ Represents [] t ∧
      ∃ u, exec .final t = .next u ∧ u.res = 0xFFFF ∧ u.resValid = true

/-- R106: reset is one transition from any state to the reset state, and it comes: with `rst = 1` on the ports, the commands
whose time has come take effect first (the model's schedule, log entry 1), at most one step each, and then every element is reset
and the host's next edge is on the ports (the model's host list, log entry 4). It holds of every state, so also of any state
before the first reset (R109, R110). -/
def Obligations.ResetIsReachedFromEveryState : Prop :=
  ∀ s : State, s.pins.rst = true →
    ∃ (k : Nat) (t : State), k ≤ s.inFlight.length + 1 ∧ runSteps k s = .next t ∧ t.elements = State.reset.elements ∧ t.inFlight = [] ∧
      t.edges = s.edges.tail

/-- R111: at an edge with `rst = 0` a command is accepted exactly when `cmd_valid = 1` and `cmd_ready = 1`; the word on the ports
at that edge joins the queue at its end; a command not accepted has no effect, and a host that holds it still presents it. The
six elements keep their values (R105). The rest is the model's choice: the edge passes when no command is due (log entry 1,
DEDUCED), how long a command takes is a free count that each edge lowers, `Pending.age` (log entry 2, DESIGN CHOICE), and the
clauses on `edges`, by which an entry that is not held lasts one edge (log entry 4, DESIGN CHOICE). -/
def Obligations.CommandIsAcceptedExactlyByTheHandshake : Prop :=
  (∀ s : State, s.accepting = true ↔ s.pins.cmdValid = true ∧ s.cmdReady = true ∧ s.pins.rst = false) ∧
  ∀ s : State, s.due = none → s.pins.rst = false →
    ∃ t, step s = .next t ∧ t.elements = s.elements ∧
      ((s.pins.cmdValid = true ∧ s.cmdReady = true) →
        ∃ lag, t.inFlight = s.inFlight.map Pending.age ++ [⟨s.pins.cmdOp ++ s.pins.cmdData, lag⟩] ∧
          t.edges = s.edges.tail) ∧
      (¬(s.pins.cmdValid = true ∧ s.cmdReady = true) →
        t.inFlight = s.inFlight.map Pending.age ∧
          ((s.pins.hold = true ∧ s.pins.cmdValid = true) → t.edges = s.edges) ∧
          (¬(s.pins.hold = true ∧ s.pins.cmdValid = true) → t.edges = s.edges.tail))

/-- A step runs the decoded command: when the oldest command in flight has its time come, the step is `exec` of what its word
decodes to, in the state with that command out of the queue and the count one higher. The word that `withFetchWord` places is
the one that runs. R16 and R42 give one atomic transition for each accepted command, in order; the rest is the model's choice:
that a due command's effect is a step of its own (log entry 1, DEDUCED), that `withFetchWord` stands for a command's coming by
the port (log entry 4, DESIGN CHOICE), and the step count (log entry 5, DESIGN CHOICE). -/
def Obligations.StepRunsTheDecodedCommand : Prop :=
  (∀ (s : State) (w : CmdWord) (rest : List Pending), s.inFlight = ⟨w, 0⟩ :: rest →
    step s = exec (decode w) { s with inFlight := rest, tick := s.tick + 1 }) ∧
  ∀ (s : State) (nbits w : Nat),
    step (s.withFetchWord nbits w) = exec (decode (tableWord nbits w)) { s with tick := s.tick + 1 }

/-- R45: a command works with the word sampled when it was accepted; what the host drives afterwards does not affect it. Until
its effect: at an edge without reset and with no command due, whatever the host drives, the commands in flight stay in front, in
order, with their words, and the six elements do not depend on the host. At its effect: the step of a due command is the same
whatever the host drives. That the effect of a due command goes before the next edge, a reset edge too, is the model's schedule
(log entry 1, DEDUCED). -/
def Obligations.InputsAfterAcceptanceDoNotMatter : Prop :=
  (∀ (s : State) (first second : List Edge), s.due = none →
    ({ s with edges := first } : State).pins.rst = false → ({ s with edges := second } : State).pins.rst = false →
    ∃ t u, step { s with edges := first } = .next t ∧ step { s with edges := second } = .next u ∧
      u.elements = t.elements ∧
      u.inFlight.take s.inFlight.length = t.inFlight.take s.inFlight.length ∧
      (t.inFlight.take s.inFlight.length).map Pending.word = s.inFlight.map Pending.word) ∧
  ∀ (s : State) (later : List Edge), s.due ≠ none →
    ∃ t u, step s = .next t ∧ step { s with edges := later } = .next u ∧ u.elements = t.elements ∧
      u.inFlight = t.inFlight

/-- R92 and R97: no state stops the machine. A step always answers a next state. -/
def Obligations.EveryStepAnswersANextState : Prop :=
  ∀ s : State, ∃ t, step s = .next t

/-- R29: while `idle = 1` the outputs equal the state. In the acceptance cycle of a command that changes an output, that output
is unspecified (R112; the reading is log entry 6), so the premise leaves that cycle out. -/
def Obligations.OutputsShowTheStateWhileIdle : Prop :=
  ∀ s : State, s.idle = true →
    (¬(s.accepting = true ∧ writesRes (decode s.pins.word) = true) → s.resPort = s.res) ∧
    (¬(s.accepting = true ∧ writesResValid (decode s.pins.word) = true) → s.resValidPort = s.resValid) ∧
    (¬(s.accepting = true ∧ writesPar (decode s.pins.word) = true) → s.parPort = s.par) ∧
    (¬(s.accepting = true ∧ writesErr (decode s.pins.word) = true) → s.errPort = s.err)

/-- R42 and R16: one atomic transition for each accepted command, in acceptance order. Let the commands in flight take effect in
their order: what results does not change when one of them takes effect by a step, nor at an edge that accepts nothing; an edge
that accepts a command adds that command's transition behind them. The schedule of effects and edges is the model's (log
entry 1). -/
def Obligations.StepsKeepAcceptanceOrder : Prop :=
  ∀ s t u : State, step s = .next t → ¬(s.due = none ∧ s.pins.rst = true) → execAll s.queue s = .next u →
    (s.due = none ∧ s.accepting = true →
      ∃ v u', execAll t.queue t = .next v ∧ exec (decode s.pins.word) u = .next u' ∧ v.elements = u'.elements) ∧
    (¬(s.due = none ∧ s.accepting = true) →
      ∃ v, execAll t.queue t = .next v ∧ v.elements = u.elements)

/-- R117, second item: after the host stops presenting commands, `idle` becomes 1 after finitely many steps, every command in
flight having taken effect in order. The counts are finite in the model (log entry 2), and `edges = []` is its host that presents
nothing more (log entry 4). -/
def Obligations.IdleComesOnceTheHostIsQuiet : Prop :=
  ∀ s u : State, s.edges = [] → execAll s.queue s = .next u →
    ∃ k t, runSteps k s = .next t ∧ t.idle = true ∧ t.elements = u.elements

/-- R117, first item: a command held presented with `rst = 0` is accepted after finitely many steps. The counts are finite in the
model (log entries 2 and 3), and `hold` is its host that keeps the command on the ports (log entry 4). -/
def Obligations.HeldCommandIsAcceptedInTheEnd : Prop :=
  ∀ (s : State) (e : Edge) (rest : List Edge), s.edges = e :: rest → e.rst = false → e.cmdValid = true → e.hold = true →
    ∃ k t, runSteps k s = .next t ∧ t.edges = e :: rest ∧ t.due = none ∧ t.accepting = true

/-! ## Decoding -/

/-- R48 and R52: the opcode map decodes on `op` alone, and every one of the 16 values of `op` has exactly one meaning. -/
def Obligations.OpcodeMapDecodesEveryWord : Prop :=
  ∀ w : CmdWord,
    (CmdWord.op w = 0x0 → decode w = .nop) ∧ (CmdWord.op w = 0x1 → decode w = .clr) ∧
    (CmdWord.op w = 0x2 → ∃ bytes, decode w = .chunk bytes) ∧ (CmdWord.op w = 0x3 → ∃ b, decode w = .byte b) ∧
    (CmdWord.op w = 0x4 → decode w = .reduce) ∧ (CmdWord.op w = 0x5 → decode w = .fold) ∧
    (CmdWord.op w = 0x6 → decode w = .final) ∧ (CmdWord.op w = 0x7 → decode w = .reserved7) ∧
    (0x8 ≤ CmdWord.op w → decode w = .reservedHigh (CmdWord.op w))

/-- R50: the ignored bits (R49) have no effect on any state: two words with the same opcode and the same used bits give the same
command, and so the same outcome from every state. -/
def Obligations.IgnoredBitsHaveNoEffect : Prop :=
  ∀ w w' : CmdWord, CmdWord.op w = CmdWord.op w' →
    (CmdWord.op w = 0x2 → CmdWord.data w = CmdWord.data w') →
    (CmdWord.op w = 0x3 → w.extractLsb' 0 8 = w'.extractLsb' 0 8) →
    decode w = decode w' ∧ ∀ s : State, exec (decode w) s = exec (decode w') s

/-- Decode and encode agree: no bit of any operand is dropped. -/
def Obligations.DecodeOfEncodeIsTheCommand : Prop :=
  ∀ i : Instr, i.wellFormed = true → decode (encode i) = i

/-- The other direction: every word decodes to a well-formed command, whose encoding is the word with its ignored bits 0
(R50, R54). -/
def Obligations.EncodeOfDecodeClearsIgnoredBits : Prop :=
  ∀ w : CmdWord, (decode w).wellFormed = true ∧ encode (decode w) = canonicalWord w

/-- R57: the example words, written out, are what the assembler makes of the examples and decode to the commands they stand for,
and the two lane words of the example chunk at even parity. -/
def Obligations.ExampleWordsDecode : Prop :=
  Asm.words (.byte 0x05) = some [0x30000000000000000000000000000000000000000000000000000000000000005] ∧
  Asm.words (.raw 9 0) = some [0x90000000000000000000000000000000000000000000000000000000000000000] ∧
  encode (.chunk (Vector.ofFn fun j => BitVec.ofNat 8 j.val)) =
    0x21f1e1d1c1b1a191817161514131211100f0e0d0c0b0a09080706050403020100 ∧
  laneWord false (Vector.ofFn fun j => BitVec.ofNat 8 j.val) 0 = 0x0001 ∧
  laneWord false (Vector.ofFn fun j => BitVec.ofNat 8 j.val) 15 = 0x1E1F ∧
  decode 0x30000000000000000000000000000000000000000000000000000000000000005 = .byte 0x05 ∧
  decode 0x21f1e1d1c1b1a191817161514131211100f0e0d0c0b0a09080706050403020100 =
    .chunk (Vector.ofFn fun j => BitVec.ofNat 8 j.val) ∧
  decode 0x90000000000000000000000000000000000000000000000000000000000000000 = .reservedHigh 0x9

/-! ## The commands, one by one -/

/-- R73: NOP does nothing, and any number of NOPs may stand anywhere in a command sequence. -/
def Obligations.NopChangesNothing : Prop :=
  (∀ w : CmdWord, CmdWord.op w = 0x0 → decode w = .nop) ∧ (∀ s : State, exec .nop s = .next s) ∧
  ∀ (before after : List Instr) (n : Nat) (s : State),
    execAll (before ++ List.replicate n .nop ++ after) s = execAll (before ++ after) s

/-- R74: CLR zeroes SACC, WACC and PAR, clears RES_VALID, and keeps RES, ERR and everything else; the stream is then
empty. CLR then FINAL gives the
empty-input checksum. -/
def Obligations.ClrStartsANewStream : Prop :=
  (∀ w : CmdWord, CmdWord.op w = 0x1 → decode w = .clr) ∧
  (∀ s : State, ∃ t, exec .clr s = .next t ∧ t.sacc = 0 ∧ (∀ k (_ : k < 16), t.wacc[k] = 0) ∧ t.par = false ∧
    t.resValid = false ∧ t.res = s.res ∧ t.err = s.err ∧ Represents [] t ∧
    t.inFlight = s.inFlight ∧ t.stall = s.stall ∧ t.edges = s.edges ∧ t.tick = s.tick) ∧
  ∀ s : State, ∃ t, execAll [.clr, .final] s = .next t ∧ t.res = 0xFFFF ∧ t.resValid = true

/-- R75: CHUNK takes its 32 bytes from the data field, byte 0 least significant, and adds to each lane, with end-around carry,
the big-endian word of its two bytes at even parity and the swapped word at odd parity. RES_VALID is cleared; nothing else
changes. The corner cases of the rule: a full lane never becomes 0, a zero word leaves its lane, and the three sums it gives. -/
def Obligations.ChunkAddsAWordIntoEachLane : Prop :=
  (∀ w : CmdWord, CmdWord.op w = 0x2 →
    ∃ bytes, decode w = .chunk bytes ∧ ∀ j (_ : j < 32), bytes[j] = w.extractLsb' (8 * j) 8) ∧
  ∀ (bytes : Chunk) (s : State), ∃ t, exec (.chunk bytes) s = .next t ∧
    (∀ k (_ : k < 16), t.wacc[k] =
      ocadd s.wacc[k] (if s.par = false then beword bytes[2 * k] bytes[2 * k + 1] else beword bytes[2 * k + 1] bytes[2 * k])) ∧
    (∀ k (_ : k < 16), s.wacc[k] = 0xFFFF → t.wacc[k] ≠ 0) ∧
    (∀ k (_ : k < 16), bytes[2 * k] = 0 → bytes[2 * k + 1] = 0 → t.wacc[k] = s.wacc[k]) ∧
    t.resValid = false ∧ t.sacc = s.sacc ∧ t.par = s.par ∧ t.res = s.res ∧ t.err = s.err ∧
    t.inFlight = s.inFlight ∧ t.stall = s.stall ∧ t.edges = s.edges ∧ t.tick = s.tick ∧
    ocadd (0xFFFF : Word16) 0xFFFF = 0xFFFF ∧ ocadd (0x8000 : Word16) 0x8000 = 0x0001 ∧
    ocadd (0xFFFF : Word16) 0x0001 = 0x0001

/-- R76: BYTE adds its byte into SACC, with end-around carry, as a high byte at even parity and a low byte at odd parity; it
toggles PAR and clears RES_VALID; nothing else changes. A zero byte leaves SACC. Two BYTEs from PAR = 0 add one big-endian
word. -/
def Obligations.ByteAddsOneWeightedByte : Prop :=
  (∀ w : CmdWord, CmdWord.op w = 0x3 → decode w = .byte (w.extractLsb' 0 8)) ∧
  (∀ (b : Byte) (s : State), ∃ t, exec (.byte b) s = .next t ∧
    (s.par = false → t.sacc = ocadd s.sacc (b.zeroExtend 64 <<< 8)) ∧
    (s.par = true → t.sacc = ocadd s.sacc (b.zeroExtend 64)) ∧
    (b = 0 → t.sacc = s.sacc) ∧
    t.par = !s.par ∧ t.resValid = false ∧ (∀ k (_ : k < 16), t.wacc[k] = s.wacc[k]) ∧ t.res = s.res ∧ t.err = s.err ∧
    t.inFlight = s.inFlight ∧ t.stall = s.stall ∧ t.edges = s.edges ∧ t.tick = s.tick) ∧
  ∀ (h l : Byte) (s : State), s.par = false → ∃ t, execAll [.byte h, .byte l] s = .next t ∧
    t.sacc = ocadd s.sacc ((beword h l).zeroExtend 64) ∧ t.par = false

/-- R79: REDUCE adds the reduction tree's output into SACC, with end-around carry, and zeroes the lanes; nothing else changes.
Twice is the same as once, and a REDUCE anywhere between a CLR and a FINAL leaves the result. -/
def Obligations.ReduceMovesTheLanesIntoSacc : Prop :=
  (∀ w : CmdWord, CmdWord.op w = 0x4 → decode w = .reduce) ∧
  (∀ s : State, ∃ t, exec .reduce s = .next t ∧ t.sacc = ocadd s.sacc (reduceTree s.wacc) ∧
    (∀ k (_ : k < 16), t.wacc[k] = 0) ∧ ((∀ k (_ : k < 16), s.wacc[k] = 0) → t.sacc = s.sacc) ∧
    t.par = s.par ∧ t.res = s.res ∧ t.resValid = s.resValid ∧ t.err = s.err ∧
    t.inFlight = s.inFlight ∧ t.stall = s.stall ∧ t.edges = s.edges ∧ t.tick = s.tick) ∧
  (∀ s : State, execAll [.reduce, .reduce] s = execAll [.reduce] s) ∧
  ∀ (is js : List Instr) (s : State), ∃ t u, execAll (.clr :: (is ++ js ++ [.final])) s = .next t ∧
    execAll (.clr :: (is ++ .reduce :: js ++ [.final])) s = .next u ∧ u.res = t.res

/-- R82: FOLD replaces SACC by its fold to 16 bits (R61); nothing else changes. A value of at most 0xFFFF stays, and twice is the
same as once. -/
def Obligations.FoldFoldsSaccInPlace : Prop :=
  (∀ w : CmdWord, CmdWord.op w = 0x5 → decode w = .fold) ∧
  (∀ s : State, ∃ t, exec .fold s = .next t ∧ t.sacc.toNat = fold16 s.sacc.toNat ∧
    (s.sacc.toNat ≤ 0xFFFF → t.sacc = s.sacc) ∧
    (∀ k (_ : k < 16), t.wacc[k] = s.wacc[k]) ∧ t.par = s.par ∧ t.res = s.res ∧ t.resValid = s.resValid ∧ t.err = s.err ∧
    t.inFlight = s.inFlight ∧ t.stall = s.stall ∧ t.edges = s.edges ∧ t.tick = s.tick) ∧
  ∀ s : State, execAll [.fold, .fold] s = execAll [.fold] s

/-- R83: FINAL adds the reduction tree's output into SACC, folds it to 16 bits, zeroes the lanes, latches the complement in RES
and sets RES_VALID; nothing else changes. A second FINAL gives the same RES and SACC. -/
def Obligations.FinalLatchesTheChecksum : Prop :=
  (∀ w : CmdWord, CmdWord.op w = 0x6 → decode w = .final) ∧
  (∀ s : State, ∃ t, exec .final s = .next t ∧
    t.sacc.toNat = fold16 (ocadd s.sacc (reduceTree s.wacc)).toNat ∧
    t.res.toNat = 0xFFFF - fold16 (ocadd s.sacc (reduceTree s.wacc)).toNat ∧
    (∀ k (_ : k < 16), t.wacc[k] = 0) ∧ t.resValid = true ∧ t.par = s.par ∧ t.err = s.err ∧
    t.inFlight = s.inFlight ∧ t.stall = s.stall ∧ t.edges = s.edges ∧ t.tick = s.tick) ∧
  ∀ s : State, execAll [.final, .final] s = execAll [.final] s

/-- R93: a reserved opcode, 0x7 to 0xF, sets ERR and changes nothing else, whether ERR was 1 already or not. The next command
executes normally. -/
def Obligations.ReservedOpcodesSetErrOnly : Prop :=
  ∀ w : CmdWord, 0x7 ≤ CmdWord.op w →
    (decode w = .reserved7 ∨ ∃ op, decode w = .reservedHigh op) ∧
    (∀ s : State, ∃ t, exec (decode w) s = .next t ∧ t.err = true ∧ t.sacc = s.sacc ∧
      (∀ k (_ : k < 16), t.wacc[k] = s.wacc[k]) ∧ t.par = s.par ∧ t.res = s.res ∧ t.resValid = s.resValid ∧
      t.inFlight = s.inFlight ∧ t.stall = s.stall ∧ t.edges = s.edges ∧ t.tick = s.tick) ∧
    ∀ (s : State) (i : Instr), execAll [decode w, i] s = exec i { s with err := true }

/-- The two RESERVED rows of the table, as terms: both complete, the second for every opcode of its row, 0x8 to 0xF (R93). The
second clause ranges over every `op`: with `op` below 0x8 the term is ill formed and stands for no word, and its meaning is the
model's choice (log entry 8, DESIGN CHOICE), not R93's. -/
def Obligations.ReservedRowsCompleteWithErrSet : Prop :=
  (∀ s : State, exec .reserved7 s = .next { s with err := true }) ∧
  ∀ (op : BitVec 4) (s : State), exec (.reservedHigh op) s = .next { s with err := true }

/-- R92: the seven defined commands raise no exception, for any operand and any state: each completes and leaves ERR alone. -/
def Obligations.DefinedCommandsRaiseNothing : Prop :=
  ∀ (i : Instr) (s : State), i ≠ .reserved7 → (∀ op, i ≠ .reservedHigh op) →
    ∃ t, exec i s = .next t ∧ t.err = s.err

/-- R108: reset and CLR differ in two elements only: reset clears ERR and RES, CLR keeps both. -/
def Obligations.ClrKeepsOnlyResAndErr : Prop :=
  ∀ s : State, s.due = none → s.pins.rst = true → ∃ t u, exec .clr s = .next t ∧ step s = .next u ∧
    t.elements = { u.elements with res := s.res, err := s.err } ∧ u.res = 0x0000 ∧ u.err = false

/-! ## Rules over all commands -/

/-- R24: each of the six elements is written only by the commands that R17's table lists. -/
def Obligations.ElementsAreWrittenOnlyAsTheTableLists : Prop :=
  ∀ (i : Instr) (s t : State), exec i s = .next t →
    (t.sacc ≠ s.sacc → i = .clr ∨ (∃ b, i = .byte b) ∨ i = .reduce ∨ i = .fold ∨ i = .final) ∧
    (t.wacc ≠ s.wacc → i = .clr ∨ (∃ bytes, i = .chunk bytes) ∨ i = .reduce ∨ i = .final) ∧
    (t.par ≠ s.par → i = .clr ∨ ∃ b, i = .byte b) ∧
    (t.res ≠ s.res → i = .final) ∧
    (t.resValid ≠ s.resValid → i = .clr ∨ (∃ bytes, i = .chunk bytes) ∨ (∃ b, i = .byte b) ∨ i = .final) ∧
    (t.err ≠ s.err → i = .reserved7 ∨ ∃ op, i = .reservedHigh op)

/-- R26: no command reads RES_VALID or ERR, and PAR is read by CHUNK and BYTE only. Run a command with those bits replaced: what
it writes is the same. SACC, WACC and RES come out equal; each flag is either kept in both runs, so that it still holds what each
run began with, or equal in both; and PAR comes out equal when it began equal. -/
def Obligations.FlagsAreReadOnlyAsTheRuleSays : Prop :=
  ∀ (i : Instr) (s : State) (p v e : Bool),
    (p = s.par ∨ (∀ b, i ≠ .byte b) ∧ ∀ bytes, i ≠ .chunk bytes) →
    ∃ t u, exec i s = .next t ∧ exec i { s with par := p, resValid := v, err := e } = .next u ∧
      u.sacc = t.sacc ∧ u.wacc = t.wacc ∧ u.res = t.res ∧
      (p = s.par → u.par = t.par) ∧
      ((t.par = s.par ∧ u.par = p) ∨ u.par = t.par) ∧
      ((t.resValid = s.resValid ∧ u.resValid = v) ∨ u.resValid = t.resValid) ∧
      ((t.err = s.err ∧ u.err = e) ∨ u.err = t.err)

/-- R23, over every step: ERR is set by a reserved command taking effect and by nothing else, and once set it stays until a reset
edge; CLR does not clear it. It is 0 after reset and shows on `err`. -/
def Obligations.ErrIsStickyUntilReset : Prop :=
  State.reset.err = false ∧ (∀ s : State, s.idle = true → s.accepting = false → s.errPort = s.err) ∧
  ∀ s t : State, step s = .next t →
    (s.err = false → t.err = true → ∃ w, s.due = some w ∧ 0x7 ≤ CmdWord.op w) ∧
    (∀ w, s.due = some w → 0x7 ≤ CmdWord.op w → t.err = true) ∧
    (s.err = true → t.err = false → s.due = none ∧ s.pins.rst = true)

/-- R21, over every step: only FINAL writes RES, and only reset puts it back. -/
def Obligations.ResChangesOnlyByFinalOrReset : Prop :=
  ∀ s t : State, step s = .next t → t.res ≠ s.res →
    (∃ w, s.due = some w ∧ CmdWord.op w = 0x6) ∨ (s.due = none ∧ s.pins.rst = true ∧ t.res = 0x0000)

/-- R22, over every step: FINAL sets RES_VALID; CLR, CHUNK and BYTE clear it; NOP, REDUCE, FOLD and a reserved command leave it;
an edge without reset leaves it, and a reset edge clears it. -/
def Obligations.ResValidFollowsTheStream : Prop :=
  ∀ s t : State, step s = .next t →
    (∀ w, s.due = some w →
      (CmdWord.op w = 0x6 → t.resValid = true) ∧
      (CmdWord.op w = 0x1 ∨ CmdWord.op w = 0x2 ∨ CmdWord.op w = 0x3 → t.resValid = false) ∧
      (CmdWord.op w = 0x0 ∨ CmdWord.op w = 0x4 ∨ CmdWord.op w = 0x5 ∨ 0x7 ≤ CmdWord.op w → t.resValid = s.resValid)) ∧
    (s.due = none → t.resValid = (s.resValid && !s.pins.rst))

/-! ## The arithmetic -/

/-- R64, for the two widths CSUM uses: the one's-complement add is exact modulo 2^W - 1 and modulo 0xFFFF (which divides 2^W - 1),
is 0 only for two zeros, has R64's closed form, is commutative and associative, and 0 is its identity. A chain of adds over any
values gives the closed form of their exact sum, so the same in any order; and cut in two anywhere, the chains of the two parts
add up to the whole, which is any grouping. -/
def Obligations.OnesComplementAddLaws : Prop :=
  ∀ W, (W = 16 ∨ W = 64) →
    0xFFFF ∣ 2 ^ W - 1 ∧
    (∀ a b c : BitVec W,
      (ocadd a b).toNat % (2 ^ W - 1) = (a.toNat + b.toNat) % (2 ^ W - 1) ∧
      (ocadd a b).toNat % 0xFFFF = (a.toNat + b.toNat) % 0xFFFF ∧
      (ocadd a b = 0 ↔ a = 0 ∧ b = 0) ∧
      (ocadd a b).toNat = (if a.toNat + b.toNat = 0 then 0 else 1 + (a.toNat + b.toNat - 1) % (2 ^ W - 1)) ∧
      ocadd a b = ocadd b a ∧ ocadd (ocadd a b) c = ocadd a (ocadd b c) ∧ ocadd a 0 = a) ∧
    (∀ xs : List (BitVec W),
      (xs.foldl ocadd 0).toNat =
        (if (xs.map BitVec.toNat).sum = 0 then 0 else 1 + ((xs.map BitVec.toNat).sum - 1) % (2 ^ W - 1))) ∧
    (∀ xs ys : List (BitVec W), xs.Perm ys → xs.foldl ocadd 0 = ys.foldl ocadd 0) ∧
    ∀ xs ys : List (BitVec W), (xs ++ ys).foldl ocadd 0 = ocadd (xs.foldl ocadd 0) (ys.foldl ocadd 0)

/-- R61: `FOLD16` repeats `fold1` until the value fits in 16 bits, and each fold above 0xFFFF lowers the value. One fold of a value
below 2^32 gives at most 0x1FFFE, and that is not always 16 bits. -/
def Obligations.FullFoldRepeatsTheFold : Prop :=
  ∀ x : Nat, (x ≤ 0xFFFF → fold16 x = x) ∧ (x > 0xFFFF → fold1 x < x ∧ fold16 x = fold16 (fold1 x)) ∧ fold16 x ≤ 0xFFFF ∧
    (x < 2 ^ 32 → fold1 x ≤ 0x1FFFE) ∧ fold1 0xFFFFFFFF = 0x1FFFE

/-- R62: the laws of folding. -/
def Obligations.FoldingLaws : Prop :=
  ∀ x : Nat, fold1 x % 0xFFFF = x % 0xFFFF ∧ (fold1 x = 0 ↔ x = 0) ∧ fold16 x ≤ 0xFFFF ∧
    fold16 x % 0xFFFF = x % 0xFFFF ∧ fold16 x = (if x = 0 then 0 else 1 + (x - 1) % 0xFFFF) ∧
    fold16 (fold16 x) = fold16 x

/-- R81: the four-stage unit equals the full fold on every 64-bit value, with the bound after each stage; three stages are not
enough. -/
def Obligations.FoldingUnitIsTheFullFold : Prop :=
  (∀ x : Word64, (foldUnit x).toNat = fold16 x.toNat ∧ fold1 x.toNat ≤ 2 ^ 48 + 0xFFFE ∧
    fold1 (fold1 x.toNat) ≤ 2 ^ 32 + 0xFFFE ∧ fold1 (fold1 (fold1 x.toNat)) ≤ 0x1FFFE ∧
    fold1 (fold1 (fold1 (fold1 x.toNat))) ≤ 0xFFFF) ∧
  fold1 0xFFFFFFFFFFFFFFFF = 0x000100000000FFFE ∧ fold1 0x000100000000FFFE = 0x000000010000FFFE ∧
  fold1 0x000000010000FFFE = 0x1FFFE ∧ fold1 0x1FFFE = 0xFFFF

/-- R77: each 16-bit field of the reduction tree's output is the end-around-carry sum of four lanes, paired by the two
halvings. -/
def Obligations.ReductionTreeHalvesTwice : Prop :=
  ∀ (w : Lanes) (j : Nat) (_ : j < 4),
    (reduceTree w).extractLsb' (16 * j) 16 = ocadd (ocadd w[j] w[j + 8]) (ocadd w[j + 4] w[j + 12])

/-- R78: the tree's output is the weighted sum of its four fields and the sum of the lanes modulo 0xFFFF, is 0 exactly when every lane is, and all lanes full give all
ones. -/
def Obligations.ReductionTreeLaws : Prop :=
  ∀ w : Lanes,
    (∃ q : Vector Word16 4, (∀ j (_ : j < 4), q[j] = ocadd (ocadd w[j] w[j + 8]) (ocadd w[j + 4] w[j + 12])) ∧
      (reduceTree w).toNat = q[0].toNat + q[1].toNat * 2 ^ 16 + q[2].toNat * 2 ^ 32 + q[3].toNat * 2 ^ 48) ∧
    (reduceTree w).toNat % 0xFFFF = (w.toList.map BitVec.toNat).sum % 0xFFFF ∧
    (reduceTree w = 0 ↔ ∀ k (_ : k < 16), w[k] = 0) ∧
    ((∀ k (_ : k < 16), w[k] = 0xFFFF) → reduceTree w = 0xFFFFFFFFFFFFFFFF)

/-! ## The reference checksum -/

/-- R59: the weighted sum adds each byte's contribution, the high byte's weight at an even position; it is the sum of the Scalar Engine's words, and of a last byte as a high byte when the length is odd. -/
def Obligations.WeightedSumIsTheSumOfWords : Prop :=
  (∀ (b : Byte) (p : Nat), (p % 2 = 0 → contrib b p = b.toNat * 0x100) ∧ (p % 2 = 1 → contrib b p = b.toNat)) ∧
  ∀ data : List Byte,
    weightedSum data = ((List.range data.length).map fun p => contrib (data.getD p 0) p).sum ∧
    weightedSum data =
      ((List.range (data.length / 2)).map fun i => (beword (data.getD (2 * i) 0) (data.getD (2 * i + 1) 0)).toNat).sum +
        (if data.length % 2 = 1 then (data.getD (data.length - 1) 0).toNat <<< 8 else 0)

/-- R67: the edge cases of the reference. -/
def Obligations.ReferenceEdgeCases : Prop :=
  checksumRef [] = 0xFFFF ∧ (∀ b : Byte, checksumRef [b] = cpl16 (b.zeroExtend 16 <<< 8)) ∧ checksumRef [0x05] = 0xFAFF

/-- R68: folding at every step or once at the end gives the same checksum. -/
def Obligations.BatchedFoldingGivesTheReference : Prop :=
  ∀ data : List Byte, checksumRef data = cpl16 (BitVec.ofNat 16 (fold16 (weightedSum data)))

/-- R69: the closed form of the reference, and when it is 0xFFFF and 0x0000. -/
def Obligations.ReferenceClosedForm : Prop :=
  ∀ data : List Byte,
    (checksumRef data).toNat =
      (if weightedSum data = 0 then 0xFFFF else 0xFFFF - (1 + (weightedSum data - 1) % 0xFFFF)) ∧
    (checksumRef data = 0xFFFF ↔ ∀ b ∈ data, b = 0) ∧
    (checksumRef data = 0x0000 ↔ 0 < weightedSum data ∧ weightedSum data % 0xFFFF = 0)

/-- R70: the concatenation law, the congruences of its odd case, and the source's property of an odd length's last byte. -/
def Obligations.ConcatenationLaw : Prop :=
  (∀ p q : List Byte, p.length % 2 = 0 → foldedSum (p ++ q) = fold16 (foldedSum p + foldedSum q)) ∧
  (∀ p q : List Byte, p.length % 2 = 1 → foldedSum (p ++ q) = fold16 (foldedSum p + swap16 (foldedSum q))) ∧
  1 % 0xFFFF = 2 ^ 8 * 2 ^ 8 % 0xFFFF ∧
  (∀ x, x ≤ 0xFFFF → swap16 x % 0xFFFF = 2 ^ 8 * x % 0xFFFF) ∧
  ∀ (p : List Byte) (b : Byte), p.length % 2 = 0 →
    checksumRef (p ++ [b]) =
      cpl16 (BitVec.ofNat 16 (fold16 ((cpl16 (checksumRef p)).toNat + (cpl16 (checksumRef [b])).toNat))) ∧
    (cpl16 (checksumRef [b])).toNat = b.toNat <<< 8

/-! ## Streams, sequences and the equivalence contract -/

/-- R87 for the reset state: it represents the empty stream. -/
def Obligations.ResetRepresentsTheEmptyStream : Prop :=
  Represents [] State.reset ∧ State.reset.resultFits

/-- R87: after every command of any sequence from reset, the four items of the invariant hold of the stream absorbed; and one
command at a time, from whatever state represents a stream, the state after a command represents the stream after it. -/
def Obligations.CommandsKeepTheStreamInvariant : Prop :=
  (∀ is : List Instr, ∃ t, execAll is State.reset = .next t ∧ Represents (streamAfterAll is []) t) ∧
  ∀ (stream : List Byte) (i : Instr) (s : State), Represents stream s →
    ∃ t, exec i s = .next t ∧ Represents (streamAfter i stream) t

/-- R87, one step of the machine, with its reset edges, its acceptances and its commands. -/
def Obligations.StepsKeepTheStreamInvariant : Prop :=
  ∀ (stream : List Byte) (s t : State), Represents stream s → step s = .next t → Represents (streamAfterStep s stream) t

/-- R22 and R87 item 4, of the state alone: from every state in which a valid RES is the complement of the folded `A`, a step
leads to such a state. -/
def Obligations.StepsKeepAValidResult : Prop :=
  ∀ s t : State, s.resultFits → step s = .next t → t.resultFits

/-- R88: any sequence of commands from a CLR, or from a state that represents the empty stream (reset), followed by FINAL, gives
the reference checksum of the stream it absorbed. -/
def Obligations.FinalGivesTheReferenceOfTheStream : Prop :=
  (∀ (is : List Instr) (s : State), ∃ t, execAll (.clr :: (is ++ [.final])) s = .next t ∧
    t.res = checksumRef (streamAfterAll is []) ∧ t.resValid = true) ∧
  ∀ is : List Instr, ∃ t, execAll (is ++ [.final]) State.reset = .next t ∧
    t.res = checksumRef (streamAfterAll is []) ∧ t.resValid = true

/-- R85 and R89, the equivalence contract: from every state, the canonical host sequence leaves RES at the reference checksum of
the data, RES_VALID at 1 and ERR as it was; it has 1 + floor(N / 32) + (N mod 32) + 1 commands. -/
def Obligations.HostSequenceComputesTheReference : Prop :=
  ∀ data : List Byte,
    (hostSequence data).length = 1 + data.length / 32 + data.length % 32 + 1 ∧
    streamAfterAll (hostSequence data) [] = data ∧
    ∀ s : State, ∃ t, execAll (hostSequence data) s = .next t ∧ t.res = checksumRef data ∧ t.resValid = true ∧ t.err = s.err

/-- R85: every CHUNK of the canonical host sequence runs with PAR = 0. -/
def Obligations.CanonicalChunksRunAtEvenParity : Prop :=
  ∀ (data : List Byte) (before after : List Instr) (bytes : Chunk) (s t : State),
    hostSequence data = before ++ .chunk bytes :: after → execAll before s = .next t → t.par = false

/-- R37 and R86: any split of a stream into commands, at any parity, with REDUCEs and FOLDs anywhere, gives the same RES; all
bytes as BYTE commands is one such split. -/
def Obligations.AnySplitOfAStreamGivesTheSameResult : Prop :=
  (∀ (is js : List Instr) (s s' : State), streamAfterAll is [] = streamAfterAll js [] →
    ∃ t t', execAll (.clr :: (is ++ [.final])) s = .next t ∧ execAll (.clr :: (js ++ [.final])) s' = .next t' ∧
      t.res = t'.res) ∧
  ∀ (data : List Byte) (s : State), ∃ t t', execAll (bytewiseSequence data) s = .next t ∧
    execAll (hostSequence data) s = .next t' ∧ t.res = t'.res

/-- R90: FINAL in the middle of a stream gives the checksum of the prefix and does not disturb the rest. -/
def Obligations.FinalInTheMiddleGivesThePrefix : Prop :=
  ∀ (is js : List Instr) (s : State), (∀ j ∈ js, j ≠ .clr) →
    ∃ t u, execAll (.clr :: (is ++ [.final])) s = .next t ∧ t.res = checksumRef (streamAfterAll is []) ∧
      execAll (js ++ [.final]) t = .next u ∧
      u.res = checksumRef (streamAfterAll is [] ++ streamAfterAll js [])

/-- R85, R89, R111, R112 and R117 together, at the ports: from a state with nothing in flight and ERR = 0, a host that presents
the canonical sequence, holding each command until it is accepted, and then waits for `idle`, reads the reference checksum with
`res_valid = 1` and `err = 0`, however long the block takes over each command and however long it holds `cmd_ready` low. Both
counts are finite in the model (log entries 2 and 3), and what the host drives is its list of edges (log entry 4). -/
def Obligations.HostReadsTheReferenceAtThePorts : Prop :=
  ∀ (data : List Byte) (s : State), s.inFlight = [] → s.err = false → s.edges = presentAll (hostSequence data) →
    ∃ k t, runSteps k s = .next t ∧ t.edges = [] ∧ t.resultReadable ∧ t.resPort = checksumRef data

/-! ## The assembler -/

/-- R54 and R55: a CHUNK literal of 64 digits gives one word whose byte j is digit pair j; any other length is an error; a BYTE
operand in 0..255 is the low eight bits of one word, and any other is an error; RAW writes any opcode. -/
def Obligations.AssemblerEncodesOperands : Prop :=
  (∀ digits : List Char, digits.length = 64 → (∀ c ∈ digits, (hexDigit c).isSome = true) →
    ∃ w, Asm.words (.chunk digits) = some [w] ∧ CmdWord.op w = 0x2 ∧
      ∀ j, j < 32 → ∃ x y, hexDigit (digits.getD (2 * j) '0') = some x ∧ hexDigit (digits.getD (2 * j + 1) '0') = some y ∧
        (w.extractLsb' (8 * j) 8).toNat = 16 * x + y) ∧
  (∀ digits : List Char, digits.length ≠ 64 → Asm.words (.chunk digits) = none) ∧
  (∀ n, n ≤ 255 → ∃ w, Asm.words (.byte n) = some [w] ∧ CmdWord.op w = 0x3 ∧ (CmdWord.data w).toNat = n) ∧
  (∀ n, 255 < n → Asm.words (.byte n) = none) ∧
  ∀ op data, op ≤ 15 → data < 2 ^ 256 → ∃ w, Asm.words (.raw op data) = some [w] ∧ (CmdWord.op w).toNat = op ∧
    (CmdWord.data w).toNat = data

/-- R56: the expansions of WORD, TAIL and CSUM. -/
def Obligations.PseudoInstructionsExpand : Prop :=
  (∀ n, n ≤ 0xFFFF → Asm.words (.word n) =
    some [encode (.byte ((BitVec.ofNat 16 n).extractLsb' 8 8)), encode (.byte ((BitVec.ofNat 16 n).extractLsb' 0 8))]) ∧
  (∀ bytes : List Byte, Asm.words (.tail (bytes.map BitVec.toNat)) = some (bytes.map fun b => encode (.byte b))) ∧
  ∀ data : List Byte, Asm.words (.csum data) = some ((hostSequence data).map encode)
end

