-- ==== Sys2Proof/Laws/Decode.lean ====
section
/-! SUPPORT. The two fields of a command word, and the bytes of a packed data field. -/

namespace Sys2Proof

@[simp] theorem op_mk (op : BitVec 4) (data : BitVec 256) : CmdWord.op (CmdWord.mk op data) = op := by
  simp [CmdWord.op, CmdWord.mk]
  exact BitVec.extractLsb'_append_eq_left

@[simp] theorem data_mk (op : BitVec 4) (data : BitVec 256) : CmdWord.data (CmdWord.mk op data) = data := by
  simp [CmdWord.data, CmdWord.mk]
  exact BitVec.extractLsb'_append_eq_right

theorem littleEndian_lt (bytes : List Byte) : littleEndian bytes < 256 ^ bytes.length := by
  induction bytes with
  | nil => simp [littleEndian]
  | cons b bs ih =>
    have := b.isLt
    simp only [littleEndian, List.length_cons, Nat.pow_succ]
    omega

/-- Byte `j` of the number is element `j` of the list. -/
theorem littleEndian_byte (bytes : List Byte) (j : Nat) (hj : j < bytes.length) :
    littleEndian bytes / 256 ^ j % 256 = bytes[j].toNat := by
  induction bytes generalizing j with
  | nil => simp at hj
  | cons b bs ih =>
    have hb := b.isLt
    cases j with
    | zero => simp only [littleEndian, Nat.pow_zero, Nat.div_one, List.getElem_cons_zero]; omega
    | succ j =>
      have h256 : littleEndian (b :: bs) / 256 = littleEndian bs := by
        simp only [littleEndian]
        omega
      rw [Nat.pow_succ, Nat.mul_comm, ← Nat.div_div_eq_div_mul, h256]
      simpa using ih j (by simpa using hj)

theorem getElem_dataBytes (data : BitVec 256) (j : Nat) (hj : j < 32) : (dataBytes data)[j] = dataByte data j := by
  simp [dataBytes]

/-- Byte `j` of the data field is `CW[8j+7:8j]` (R49). -/
theorem dataByte_of_word (w : CmdWord) (j : Nat) (hj : j < 32) :
    dataByte (CmdWord.data w) j = w.extractLsb' (8 * j) 8 := by
  unfold dataByte CmdWord.data
  ext i hi
  simp [BitVec.getElem_extractLsb']
  omega

theorem littleEndian_chunk_lt (bytes : Chunk) : littleEndian bytes.toList < 2 ^ 256 := by
  have hlt := littleEndian_lt bytes.toList
  have hlen : bytes.toList.length = 32 := Vector.length_toList
  have hpow : (256 : Nat) ^ 32 = 2 ^ 256 := by decide
  exact lt_of_lt_of_eq hlt ((congrArg (fun n => 256 ^ n) hlen).trans hpow)

theorem packBytes_toNat (bytes : Chunk) : (packBytes bytes).toNat = littleEndian bytes.toList :=
  (BitVec.toNat_ofNat _ _).trans (Nat.mod_eq_of_lt (littleEndian_chunk_lt bytes))

/-- Byte `j` of the packed data field is byte `j` of the chunk. -/
theorem dataByte_packBytes (bytes : Chunk) (j : Nat) (hj : j < 32) : dataByte (packBytes bytes) j = bytes[j] := by
  apply BitVec.eq_of_toNat_eq
  unfold dataByte
  rw [BitVec.extractLsb'_toNat, packBytes_toNat, Nat.shiftRight_eq_div_pow]
  have hbyte := littleEndian_byte bytes.toList j (by simpa using hj)
  have hpow : (256 : Nat) ^ j = 2 ^ (8 * j) := by rw [Nat.pow_mul]
  rw [hpow, Vector.getElem_toList] at hbyte
  exact hbyte

/-- What a word with the opcode of CHUNK decodes to: the lemma to cite, since unfolding `decode` on a chunk is slow. -/
theorem decode_of_op_chunk {w : CmdWord} (h : CmdWord.op w = 0x2) : decode w = .chunk (dataBytes (CmdWord.data w)) := by
  have h' : CmdWord.op w = 0x2#4 := h
  unfold decode
  simp only [h']

theorem decode_of_op_byte {w : CmdWord} (h : CmdWord.op w = 0x3) : decode w = .byte (dataByte (CmdWord.data w) 0) := by
  have h' : CmdWord.op w = 0x3#4 := h
  unfold decode
  simp only [h']

theorem decode_of_op_high {w : CmdWord} (h : 0x8#4 ≤ CmdWord.op w) : decode w = .reservedHigh (CmdWord.op w) := by
  unfold decode
  split <;> simp_all

end Sys2Proof
end

