-- ==== Sys2Proof/Laws/State.lean ====
section
/-! SUPPORT. One lemma for each field and each named update of State, so that no proof unfolds a record update. -/

namespace Sys2Proof.Machine

@[simp] theorem State.sacc_setSacc (s : State) (v : Word64) : (s.setSacc v).sacc = v := rfl
@[simp] theorem State.wacc_setSacc (s : State) (v : Word64) : (s.setSacc v).wacc = s.wacc := rfl
@[simp] theorem State.par_setSacc (s : State) (v : Word64) : (s.setSacc v).par = s.par := rfl
@[simp] theorem State.res_setSacc (s : State) (v : Word64) : (s.setSacc v).res = s.res := rfl
@[simp] theorem State.resValid_setSacc (s : State) (v : Word64) : (s.setSacc v).resValid = s.resValid := rfl
@[simp] theorem State.err_setSacc (s : State) (v : Word64) : (s.setSacc v).err = s.err := rfl
@[simp] theorem State.inFlight_setSacc (s : State) (v : Word64) : (s.setSacc v).inFlight = s.inFlight := rfl
@[simp] theorem State.stall_setSacc (s : State) (v : Word64) : (s.setSacc v).stall = s.stall := rfl
@[simp] theorem State.edges_setSacc (s : State) (v : Word64) : (s.setSacc v).edges = s.edges := rfl
@[simp] theorem State.tick_setSacc (s : State) (v : Word64) : (s.setSacc v).tick = s.tick := rfl

@[simp] theorem State.sacc_setWacc (s : State) (v : Lanes) : (s.setWacc v).sacc = s.sacc := rfl
@[simp] theorem State.wacc_setWacc (s : State) (v : Lanes) : (s.setWacc v).wacc = v := rfl
@[simp] theorem State.par_setWacc (s : State) (v : Lanes) : (s.setWacc v).par = s.par := rfl
@[simp] theorem State.res_setWacc (s : State) (v : Lanes) : (s.setWacc v).res = s.res := rfl
@[simp] theorem State.resValid_setWacc (s : State) (v : Lanes) : (s.setWacc v).resValid = s.resValid := rfl
@[simp] theorem State.err_setWacc (s : State) (v : Lanes) : (s.setWacc v).err = s.err := rfl
@[simp] theorem State.inFlight_setWacc (s : State) (v : Lanes) : (s.setWacc v).inFlight = s.inFlight := rfl
@[simp] theorem State.stall_setWacc (s : State) (v : Lanes) : (s.setWacc v).stall = s.stall := rfl
@[simp] theorem State.edges_setWacc (s : State) (v : Lanes) : (s.setWacc v).edges = s.edges := rfl
@[simp] theorem State.tick_setWacc (s : State) (v : Lanes) : (s.setWacc v).tick = s.tick := rfl

@[simp] theorem State.sacc_setPar (s : State) (v : Bool) : (s.setPar v).sacc = s.sacc := rfl
@[simp] theorem State.wacc_setPar (s : State) (v : Bool) : (s.setPar v).wacc = s.wacc := rfl
@[simp] theorem State.par_setPar (s : State) (v : Bool) : (s.setPar v).par = v := rfl
@[simp] theorem State.res_setPar (s : State) (v : Bool) : (s.setPar v).res = s.res := rfl
@[simp] theorem State.resValid_setPar (s : State) (v : Bool) : (s.setPar v).resValid = s.resValid := rfl
@[simp] theorem State.err_setPar (s : State) (v : Bool) : (s.setPar v).err = s.err := rfl
@[simp] theorem State.inFlight_setPar (s : State) (v : Bool) : (s.setPar v).inFlight = s.inFlight := rfl
@[simp] theorem State.stall_setPar (s : State) (v : Bool) : (s.setPar v).stall = s.stall := rfl
@[simp] theorem State.edges_setPar (s : State) (v : Bool) : (s.setPar v).edges = s.edges := rfl
@[simp] theorem State.tick_setPar (s : State) (v : Bool) : (s.setPar v).tick = s.tick := rfl

@[simp] theorem State.sacc_setRes (s : State) (v : Word16) : (s.setRes v).sacc = s.sacc := rfl
@[simp] theorem State.wacc_setRes (s : State) (v : Word16) : (s.setRes v).wacc = s.wacc := rfl
@[simp] theorem State.par_setRes (s : State) (v : Word16) : (s.setRes v).par = s.par := rfl
@[simp] theorem State.res_setRes (s : State) (v : Word16) : (s.setRes v).res = v := rfl
@[simp] theorem State.resValid_setRes (s : State) (v : Word16) : (s.setRes v).resValid = s.resValid := rfl
@[simp] theorem State.err_setRes (s : State) (v : Word16) : (s.setRes v).err = s.err := rfl
@[simp] theorem State.inFlight_setRes (s : State) (v : Word16) : (s.setRes v).inFlight = s.inFlight := rfl
@[simp] theorem State.stall_setRes (s : State) (v : Word16) : (s.setRes v).stall = s.stall := rfl
@[simp] theorem State.edges_setRes (s : State) (v : Word16) : (s.setRes v).edges = s.edges := rfl
@[simp] theorem State.tick_setRes (s : State) (v : Word16) : (s.setRes v).tick = s.tick := rfl

@[simp] theorem State.sacc_setResValid (s : State) (v : Bool) : (s.setResValid v).sacc = s.sacc := rfl
@[simp] theorem State.wacc_setResValid (s : State) (v : Bool) : (s.setResValid v).wacc = s.wacc := rfl
@[simp] theorem State.par_setResValid (s : State) (v : Bool) : (s.setResValid v).par = s.par := rfl
@[simp] theorem State.res_setResValid (s : State) (v : Bool) : (s.setResValid v).res = s.res := rfl
@[simp] theorem State.resValid_setResValid (s : State) (v : Bool) : (s.setResValid v).resValid = v := rfl
@[simp] theorem State.err_setResValid (s : State) (v : Bool) : (s.setResValid v).err = s.err := rfl
@[simp] theorem State.inFlight_setResValid (s : State) (v : Bool) : (s.setResValid v).inFlight = s.inFlight := rfl
@[simp] theorem State.stall_setResValid (s : State) (v : Bool) : (s.setResValid v).stall = s.stall := rfl
@[simp] theorem State.edges_setResValid (s : State) (v : Bool) : (s.setResValid v).edges = s.edges := rfl
@[simp] theorem State.tick_setResValid (s : State) (v : Bool) : (s.setResValid v).tick = s.tick := rfl

@[simp] theorem State.sacc_setErr (s : State) (v : Bool) : (s.setErr v).sacc = s.sacc := rfl
@[simp] theorem State.wacc_setErr (s : State) (v : Bool) : (s.setErr v).wacc = s.wacc := rfl
@[simp] theorem State.par_setErr (s : State) (v : Bool) : (s.setErr v).par = s.par := rfl
@[simp] theorem State.res_setErr (s : State) (v : Bool) : (s.setErr v).res = s.res := rfl
@[simp] theorem State.resValid_setErr (s : State) (v : Bool) : (s.setErr v).resValid = s.resValid := rfl
@[simp] theorem State.err_setErr (s : State) (v : Bool) : (s.setErr v).err = v := rfl
@[simp] theorem State.inFlight_setErr (s : State) (v : Bool) : (s.setErr v).inFlight = s.inFlight := rfl
@[simp] theorem State.stall_setErr (s : State) (v : Bool) : (s.setErr v).stall = s.stall := rfl
@[simp] theorem State.edges_setErr (s : State) (v : Bool) : (s.setErr v).edges = s.edges := rfl
@[simp] theorem State.tick_setErr (s : State) (v : Bool) : (s.setErr v).tick = s.tick := rfl

@[simp] theorem State.sacc_raiseReservedCommand (s : State) : s.raiseReservedCommand.sacc = s.sacc := rfl
@[simp] theorem State.wacc_raiseReservedCommand (s : State) : s.raiseReservedCommand.wacc = s.wacc := rfl
@[simp] theorem State.par_raiseReservedCommand (s : State) : s.raiseReservedCommand.par = s.par := rfl
@[simp] theorem State.res_raiseReservedCommand (s : State) : s.raiseReservedCommand.res = s.res := rfl
@[simp] theorem State.resValid_raiseReservedCommand (s : State) : s.raiseReservedCommand.resValid = s.resValid := rfl
@[simp] theorem State.err_raiseReservedCommand (s : State) : s.raiseReservedCommand.err = true := rfl
@[simp] theorem State.inFlight_raiseReservedCommand (s : State) : s.raiseReservedCommand.inFlight = s.inFlight := rfl
@[simp] theorem State.stall_raiseReservedCommand (s : State) : s.raiseReservedCommand.stall = s.stall := rfl
@[simp] theorem State.edges_raiseReservedCommand (s : State) : s.raiseReservedCommand.edges = s.edges := rfl
@[simp] theorem State.tick_raiseReservedCommand (s : State) : s.raiseReservedCommand.tick = s.tick := rfl

@[simp] theorem State.sacc_applyReset (s : State) : s.applyReset.sacc = 0 := rfl
@[simp] theorem State.wacc_applyReset (s : State) : s.applyReset.wacc = zeroLanes := rfl
@[simp] theorem State.par_applyReset (s : State) : s.applyReset.par = false := rfl
@[simp] theorem State.res_applyReset (s : State) : s.applyReset.res = 0 := rfl
@[simp] theorem State.resValid_applyReset (s : State) : s.applyReset.resValid = false := rfl
@[simp] theorem State.err_applyReset (s : State) : s.applyReset.err = false := rfl
@[simp] theorem State.inFlight_applyReset (s : State) : s.applyReset.inFlight = [] := rfl
@[simp] theorem State.stall_applyReset (s : State) : s.applyReset.stall = s.stall := rfl
@[simp] theorem State.edges_applyReset (s : State) : s.applyReset.edges = s.edges := rfl
@[simp] theorem State.tick_applyReset (s : State) : s.applyReset.tick = s.tick := rfl

@[simp] theorem State.sacc_retire (s : State) : s.retire.sacc = s.sacc := rfl
@[simp] theorem State.wacc_retire (s : State) : s.retire.wacc = s.wacc := rfl
@[simp] theorem State.par_retire (s : State) : s.retire.par = s.par := rfl
@[simp] theorem State.res_retire (s : State) : s.retire.res = s.res := rfl
@[simp] theorem State.resValid_retire (s : State) : s.retire.resValid = s.resValid := rfl
@[simp] theorem State.err_retire (s : State) : s.retire.err = s.err := rfl
@[simp] theorem State.inFlight_retire (s : State) : s.retire.inFlight = s.inFlight.tail := rfl
@[simp] theorem State.stall_retire (s : State) : s.retire.stall = s.stall := rfl
@[simp] theorem State.edges_retire (s : State) : s.retire.edges = s.edges := rfl
@[simp] theorem State.tick_retire (s : State) : s.retire.tick = s.tick + 1 := rfl

@[simp] theorem State.sacc_runEdge (s : State) : s.runEdge.sacc = s.sacc := rfl
@[simp] theorem State.wacc_runEdge (s : State) : s.runEdge.wacc = s.wacc := rfl
@[simp] theorem State.par_runEdge (s : State) : s.runEdge.par = s.par := rfl
@[simp] theorem State.res_runEdge (s : State) : s.runEdge.res = s.res := rfl
@[simp] theorem State.resValid_runEdge (s : State) : s.runEdge.resValid = s.resValid := rfl
@[simp] theorem State.err_runEdge (s : State) : s.runEdge.err = s.err := rfl
@[simp] theorem State.inFlight_runEdge (s : State) : s.runEdge.inFlight = s.inFlight.map Pending.age ++ s.accepted := rfl
@[simp] theorem State.stall_runEdge (s : State) : s.runEdge.stall = s.nextStall := rfl
@[simp] theorem State.edges_runEdge (s : State) : s.runEdge.edges = s.restEdges := rfl
@[simp] theorem State.tick_runEdge (s : State) : s.runEdge.tick = s.tick + 1 := rfl

@[simp] theorem State.sacc_resetEdge (s : State) : s.resetEdge.sacc = 0 := rfl
@[simp] theorem State.wacc_resetEdge (s : State) : s.resetEdge.wacc = zeroLanes := rfl
@[simp] theorem State.par_resetEdge (s : State) : s.resetEdge.par = false := rfl
@[simp] theorem State.res_resetEdge (s : State) : s.resetEdge.res = 0 := rfl
@[simp] theorem State.resValid_resetEdge (s : State) : s.resetEdge.resValid = false := rfl
@[simp] theorem State.err_resetEdge (s : State) : s.resetEdge.err = false := rfl
@[simp] theorem State.inFlight_resetEdge (s : State) : s.resetEdge.inFlight = [] := rfl
@[simp] theorem State.stall_resetEdge (s : State) : s.resetEdge.stall = Config.readyStall s.tick := rfl
@[simp] theorem State.edges_resetEdge (s : State) : s.resetEdge.edges = s.restEdges := rfl
@[simp] theorem State.tick_resetEdge (s : State) : s.resetEdge.tick = s.tick + 1 := rfl

end Sys2Proof.Machine
end

