-- ==== Sys2Proof/Laws/Primitives.lean ====
section
/-! SUPPORT. The value of each primitive as a natural number, and its lanes one by one. -/

namespace Sys2Proof.Machine

theorem fold1_eq (x : Nat) : fold1 x = x % 65536 + x / 65536 := by
  have h : x &&& 0xFFFF = x % 65536 := Nat.and_two_pow_sub_one_eq_mod x 16
  simp only [fold1, h, Nat.shiftRight_eq_div_pow]

theorem append_toNat {v w : Nat} (a : BitVec v) (b : BitVec w) :
    (a ++ b).toNat = a.toNat * 2 ^ w + b.toNat := by
  rw [BitVec.toNat_append, Nat.shiftLeft_eq, Nat.mul_comm, Nat.two_pow_add_eq_or_of_lt b.isLt]

theorem beword_eq_append (h l : Byte) : beword h l = h ++ l := by
  apply BitVec.eq_of_toNat_eq
  have hh := h.isLt
  have hl := l.isLt
  rw [append_toNat]
  simp only [beword, BitVec.toNat_or, BitVec.toNat_shiftLeft, BitVec.truncate_eq_setWidth, BitVec.toNat_setWidth,
    Nat.shiftLeft_eq]
  rw [Nat.mod_eq_of_lt (show h.toNat < 2 ^ 16 by omega), Nat.mod_eq_of_lt (show l.toNat < 2 ^ 16 by omega),
    Nat.mod_eq_of_lt (by omega), Nat.mul_comm, Nat.two_pow_add_eq_or_of_lt hl]

theorem beword_toNat (h l : Byte) : (beword h l).toNat = h.toNat * 256 + l.toNat := by
  simp only [beword_eq_append, append_toNat, Nat.reducePow]

theorem ocadd_toNat {w : Nat} (a b : BitVec w) :
    (ocadd a b).toNat =
      if 2 ^ w ≤ a.toNat + b.toNat then a.toNat + b.toNat - 2 ^ w + 1 else a.toNat + b.toNat := by
  have ha := a.isLt
  have hb := b.isLt
  unfold ocadd
  simp only
  split
  · rw [BitVec.toNat_ofNat, Nat.mod_eq_of_lt (by omega)]
  · rw [BitVec.toNat_ofNat, Nat.mod_eq_of_lt (by omega)]

theorem cpl16_toNat (s : Word16) : (cpl16 s).toNat = 65535 - s.toNat := by
  simp [cpl16, BitVec.toNat_not]

theorem contrib_eq (b : Byte) (p : Nat) : contrib b p = if p % 2 = 0 then b.toNat * 256 else b.toNat := by
  simp [contrib, Nat.shiftLeft_eq]

theorem byteValue_toNat (par : Bool) (b : Byte) :
    (byteValue par b).toNat = if par then b.toNat else b.toNat * 256 := by
  have := b.isLt
  cases par
  · simp [byteValue, Nat.shiftLeft_eq]; omega
  · simp [byteValue]; omega

@[simp] theorem getElem_zeroLanes (k : Nat) (hk : k < 16) : zeroLanes[k] = 0 := by
  simp [zeroLanes]

@[simp] theorem getElem_addLanes (w u : Lanes) (k : Nat) (hk : k < 16) :
    (addLanes w u)[k] = ocadd w[k] u[k] := by
  simp [addLanes]

@[simp] theorem getElem_laneWords (par : Bool) (bytes : Chunk) (k : Nat) (hk : k < 16) :
    (laneWords par bytes)[k] = laneWord par bytes ⟨k, hk⟩ := by
  simp [laneWords]

@[simp] theorem getElem_reduceStage1 (w : Lanes) (j : Nat) (hj : j < 8) :
    (reduceStage1 w)[j] = ocadd w[j] w[j + 8] := by
  simp [reduceStage1]

@[simp] theorem getElem_reduceStage2 (m : Vector Word16 8) (j : Nat) (hj : j < 4) :
    (reduceStage2 m)[j] = ocadd m[j] m[j + 4] := by
  simp [reduceStage2]

theorem reduceTree_toNat (w : Lanes) :
    (reduceTree w).toNat =
      (ocadd (ocadd w[3] w[11]) (ocadd w[7] w[15])).toNat * 2 ^ 48
        + (ocadd (ocadd w[2] w[10]) (ocadd w[6] w[14])).toNat * 2 ^ 32
        + (ocadd (ocadd w[1] w[9]) (ocadd w[5] w[13])).toNat * 2 ^ 16
        + (ocadd (ocadd w[0] w[8]) (ocadd w[4] w[12])).toNat := by
  have h : (reduceTree w).toNat =
      ((reduceStage2 (reduceStage1 w))[3] ++ (reduceStage2 (reduceStage1 w))[2]
        ++ (reduceStage2 (reduceStage1 w))[1] ++ (reduceStage2 (reduceStage1 w))[0]).toNat := rfl
  rw [h, append_toNat, append_toNat, append_toNat]
  simp only [getElem_reduceStage1, getElem_reduceStage2, Nat.reduceAdd]
  omega

end Sys2Proof.Machine
end

