-- ==== Sys2Proof/Laws/Exec.lean ====
section
/-! SUPPORT. What a command leaves alone outside the six elements of R17, said once for all commands. -/

namespace Sys2Proof.Machine

/-- A command writes nothing but the six elements: the queue, the handshake, the host's edges and the count stay. -/
theorem exec_frame {i : Instr} {s t : State} (h : exec i s = .next t) :
    t.inFlight = s.inFlight ∧ t.stall = s.stall ∧ t.edges = s.edges ∧ t.tick = s.tick := by
  cases i <;>
    (simp only [exec, execNop, execClr, execChunk, execByte, execReduce, execFold, execFinal, execReserved7,
      execReservedHigh, Host.Outcome.next.injEq] at h; subst h; simp)

/-- A command does not look at what is outside the six elements. -/
theorem exec_congr {i : Instr} {s s' t : State} (h : exec i s = .next t)
    (hs : s.sacc = s'.sacc ∧ s.wacc = s'.wacc ∧ s.par = s'.par ∧ s.res = s'.res ∧
      s.resValid = s'.resValid ∧ s.err = s'.err) :
    exec i s' = .next { t with
      inFlight := s'.inFlight, stall := s'.stall, edges := s'.edges, tick := s'.tick } := by
  obtain ⟨h1, h2, h3, h4, h5, h6⟩ := hs
  cases s
  cases s'
  simp only at h1 h2 h3 h4 h5 h6
  subst h1 h2 h3 h4 h5 h6
  cases i <;>
    (simp only [exec, execNop, execClr, execChunk, execByte, execReduce, execFold, execFinal, execReserved7,
      execReservedHigh, Host.Outcome.next.injEq] at h ⊢; subst h; rfl)

end Sys2Proof.Machine
end

