-- ==== Sys2Proof/Laws/PerInstr.lean ====
section
/-! SUPPORT. A family of lemmas, one for each well-formed command: where its encoding puts the opcode and its operand, and what fills the
ignored bits (spec/30_encoding.md R48, R49, R54). -/

namespace Sys2Proof.Laws.EncodesFields

/-- The word's opcode is the command's, its data is the operand's, and no ignored bit is set. -/
def Statement (i : Instr) : Prop :=
  i.wellFormed = true →
    CmdWord.op (encode i) = i.opcode ∧ CmdWord.data (encode i) = encodeData i ∧
      encodeData i &&& ~~~usedMask i.opcode = 0

theorem nop : Statement .nop := fun _ => ⟨op_mk _ _, data_mk _ _, by decide⟩

theorem clr : Statement .clr := fun _ => ⟨op_mk _ _, data_mk _ _, by decide⟩

theorem chunk (bytes : Chunk) : Statement (.chunk bytes) :=
  fun _ => ⟨op_mk _ _, data_mk _ _, by simp [Instr.opcode, usedMask]⟩

theorem byte (b : Byte) : Statement (.byte b) :=
  fun _ => ⟨op_mk _ _, data_mk _ _, by
    ext i hi
    by_cases h8 : i < 8
    · simp only [Instr.opcode, usedMask, encodeData]
      interval_cases i <;> simp
    · simp [encodeData, BitVec.getLsbD_of_ge b i (by omega)]⟩

theorem reduce : Statement .reduce := fun _ => ⟨op_mk _ _, data_mk _ _, by decide⟩

theorem fold : Statement .fold := fun _ => ⟨op_mk _ _, data_mk _ _, by decide⟩

theorem final : Statement .final := fun _ => ⟨op_mk _ _, data_mk _ _, by decide⟩

theorem reserved7 : Statement .reserved7 := fun _ => ⟨op_mk _ _, data_mk _ _, by decide⟩

theorem reservedHigh (op : BitVec 4) : Statement (.reservedHigh op) :=
  fun _ => ⟨op_mk _ _, data_mk _ _, by simp [encodeData]⟩

end Sys2Proof.Laws.EncodesFields
end

