-- ==== Sys2Proof/Laws/Step.lean ====
section
/-! SUPPORT. What one step can do: three cases, and no other. -/

namespace Sys2Proof.Machine

theorem due_eq_some {s : State} {w : CmdWord} :
    s.due = some w ↔ ∃ rest, s.inFlight = ⟨w, 0⟩ :: rest := by
  unfold State.due
  split
  · next h => simp [h]
  · next p rest h =>
    obtain ⟨w', lag⟩ := p
    rw [h]
    simp only [List.cons.injEq, Pending.mk.injEq]
    split
    · next hl => simp_all
    · next hl => simp_all

theorem step_of_due {s : State} {w : CmdWord} (h : s.due = some w) : step s = exec (decode w) s.retire := by
  unfold step
  rw [h]

theorem step_of_not_due {s : State} (h : s.due = none) : step s = .next s.clockEdge := by
  unfold step
  rw [h]

/-- A step that answers a next state ran the due command, or was a reset edge, or was an edge without reset. -/
theorem step_cases {s t : State} (h : step s = .next t) :
    (∃ w, s.due = some w ∧ exec (decode w) s.retire = .next t) ∨
      (s.due = none ∧ s.pins.rst = true ∧ t = s.resetEdge) ∨
      (s.due = none ∧ s.pins.rst = false ∧ t = s.runEdge) := by
  cases hd : s.due with
  | some w => exact .inl ⟨w, rfl, by rw [← step_of_due hd, h]⟩
  | none =>
    rw [step_of_not_due hd] at h
    cases h
    cases hr : s.pins.rst with
    | true => exact .inr (.inl ⟨rfl, rfl, by simp [State.clockEdge, hr]⟩)
    | false => exact .inr (.inr ⟨rfl, rfl, by simp [State.clockEdge, hr]⟩)

theorem runSteps_of_step {s t : State} {k : Nat} (h : step s = .next t) : runSteps (k + 1) s = runSteps k t := by
  simp only [runSteps, h]

theorem run_zero (m : Host.Core) (s : m.State) : m.run 0 s = .next s := by
  rw [Host.Core.run.eq_def]

theorem run_of_next (m : Host.Core) (k : Nat) (s t : m.State) (h : m.step s = .next t) : m.run (k + 1) s = m.run k t := by
  rw [Host.Core.run.eq_def]
  simp only [h]

theorem run_of_fault (m : Host.Core) (k : Nat) (s : m.State) (r : m.Fault) (h : m.step s = .fault r) :
    m.run (k + 1) s = .fault r := by
  rw [Host.Core.run.eq_def]
  simp only [h]

theorem run_of_refused (m : Host.Core) (k : Nat) (s : m.State) (r : m.Refusal) (h : m.step s = .refused r) :
    m.run (k + 1) s = .refused r := by
  rw [Host.Core.run.eq_def]
  simp only [h]

/-- `runSteps` is the interface's run of this machine. -/
theorem runSteps_eq_run (k : Nat) (s : State) : runSteps k s = core.run k s := by
  induction k generalizing s with
  | zero => exact (run_zero core s).symm
  | succ k ih =>
    unfold runSteps
    cases h : step s with
    | next t => exact (ih t).trans (run_of_next core k s t h).symm
    | fault r => exact (run_of_fault core k s r h).symm
    | refused r => exact (run_of_refused core k s r h).symm

end Sys2Proof.Machine
end

