-- ==== Sys2Proof/Tests/Slice0.lean ====
section
/-! SUPPORT. Tests of the model against the spec's own numbers (spec/95_test_vectors.md, spec/30_encoding.md R57), and for each
statement with premises a witness that meets them. -/

set_option exponentiation.threshold 300

namespace Sys2Proof.Tests

open Sys2Proof.Machine

/-- What `f` reads in the next state, if there is one. -/
def after {α : Type} (o : Host.Outcome State Fault Refusal) (f : State → α) : Option α :=
  match o with
  | .next t => some (f t)
  | .fault _ => none
  | .refused _ => none

/-- Sixteen lanes from sixteen numbers. -/
def lanes (ns : List Nat) : Lanes := Vector.ofFn fun k => BitVec.ofNat 16 (ns.getD k.val 0)

/-- Every lane the same. -/
def flat (v : Word16) : Lanes := Vector.replicate 16 v

/-- The chunk `000102...1f`. -/
def countingChunk : Chunk := Vector.ofFn fun j => BitVec.ofNat 8 j.val

/-- The state after program P1 ("hello"), 95_test_vectors.md. -/
def afterHello : State := { State.reset with sacc := 0x43D2, par := true, res := 0xBC2D, resValid := true }

/-! ## WellFormed -/

/-- An opcode below 0x8 does not belong to the row 0x8 to 0xF. -/
theorem test_wellFormed_refuses_low_reservedHigh : (Instr.reservedHigh 0x3).wellFormed = false := by decide

theorem test_wellFormed_takes_first_and_last_reservedHigh :
    (Instr.reservedHigh 0x8).wellFormed = true ∧ (Instr.reservedHigh 0xF).wellFormed = true := by decide

/-! ## Decoding: words written out from R47, R48 and R57 -/

theorem test_decode_nop : decode 0x00000000000000000000000000000000000000000000000000000000000000001 = .nop := by decide

theorem test_decode_clr : decode 0x1ffffffffffffffffffffffffffffffffffffffffffffffffffffffffffffffff = .clr := by decide

theorem test_decode_chunk :
    decode 0x21f1e1d1c1b1a191817161514131211100f0e0d0c0b0a09080706050403020100 = .chunk countingChunk := by decide

theorem test_decode_byte : decode 0x3ffffffffffffffffffffffffffffffffffffffffffffffffffffffffffffff05 = .byte 0x05 := by decide

theorem test_decode_reduce : decode 0x40000000000000000000000000000000000000000000000000000000000000000 = .reduce := by decide

theorem test_decode_fold : decode 0x50000000000000000000000000000000000000000000000000000000000000000 = .fold := by decide

theorem test_decode_final : decode 0x60000000000000000000000000000000000000000000000000000000000000000 = .final := by decide

theorem test_decode_reserved7 :
    decode 0x70000000000000000000000000000000000000000000000000000000000000000 = .reserved7 := by decide

theorem test_decode_reservedHigh :
    decode 0xf0000000000000000000000000000000000000000000000000000000000000001 = .reservedHigh 0xF := by decide

theorem test_decodeTableWord :
    decodeTableWord 264 0x60000000000000000000000000000000000000000000000000000000000000000 = some .final := by decide

/-- A number with a bit above CW[259] is no command word. -/
theorem test_decodeTableWord_refuses_bit_260 : decodeTableWord 264 (2 ^ 260) = none := by decide

/-- The first command after reset: BYTE 0x05 (95, BYTE table, first row). -/
theorem test_step_withFetchWord :
    after (step (State.reset.withFetchWord 264 0x30000000000000000000000000000000000000000000000000000000000000005))
      (fun t => (t.sacc, t.par, t.inFlight)) = some (0x500, true, []) := by decide

/-! ## The commands: 95_test_vectors.md, L2 -/

theorem test_nop_keeps_everything : after (exec .nop afterHello) id = some afterHello := by decide

theorem test_clr_after_hello :
    after (exec .clr { afterHello with err := true }) State.elements =
      some ⟨0, zeroLanes, false, 0xBC2D, false, true⟩ := by decide

theorem test_chunk_even : after (exec (.chunk countingChunk) State.reset) (fun t => t.wacc) =
    some (lanes [0x0001, 0x0203, 0x0405, 0x0607, 0x0809, 0x0A0B, 0x0C0D, 0x0E0F,
      0x1011, 0x1213, 0x1415, 0x1617, 0x1819, 0x1A1B, 0x1C1D, 0x1E1F]) := by decide

theorem test_chunk_odd : after (exec (.chunk countingChunk) { State.reset with par := true }) (fun t => t.wacc) =
    some (lanes [0x0100, 0x0302, 0x0504, 0x0706, 0x0908, 0x0B0A, 0x0D0C, 0x0F0E,
      0x1110, 0x1312, 0x1514, 0x1716, 0x1918, 0x1B1A, 0x1D1C, 0x1F1E]) := by decide

theorem test_byte_carry_out_of_bit_63 :
    after (exec (.byte 0x01) { State.reset with sacc := 0xFFFFFFFFFFFFFFFF }) (fun t => (t.sacc, t.par)) =
      some (0x100, true) := by decide

theorem test_byte_odd : after (exec (.byte 0x05) { State.reset with sacc := 0x500, par := true }) (fun t => (t.sacc, t.par)) =
    some (0x505, false) := by decide

theorem test_reduce_counting_lanes :
    after (exec .reduce { State.reset with wacc := laneWords false countingChunk }) (fun t => (t.sacc, t.wacc)) =
      some (0x484C4044383C3034, zeroLanes) := by decide

theorem test_reduce_lanes_0_and_8 :
    after (exec .reduce { State.reset with wacc := lanes [1, 0, 0, 0, 0, 0, 0, 0, 0xFFFF] }) (fun t => t.sacc) =
      some 0x1 := by decide

theorem test_fold_hello : after (exec .fold { State.reset with sacc := 0x143D1 }) (fun t => t.sacc) = some 0x43D2 := by decide

theorem test_fold_all_ones :
    after (exec .fold { State.reset with sacc := 0xFFFFFFFFFFFFFFFF }) (fun t => t.sacc) = some 0xFFFF := by decide

theorem test_final_lane_15 :
    after (exec .final { State.reset with sacc := 0x1234, wacc := lanes [0, 0, 0, 0, 0, 0, 0, 0, 0, 0, 0, 0, 0, 0, 0, 1] })
      (fun t => (t.sacc, t.res, t.resValid)) = some (0x1235, 0xEDCA, true) := by decide

theorem test_final_all_ones :
    after (exec .final { State.reset with sacc := 0xFFFFFFFFFFFFFFFF, wacc := flat 0xFFFF })
      (fun t => (t.sacc, t.res)) = some (0xFFFF, 0x0000) := by decide

theorem test_reserved7_sets_err : after (exec .reserved7 afterHello) id = some { afterHello with err := true } := by decide

theorem test_reserved_9_sets_err :
    after (exec (.reservedHigh 0x9) { State.reset with sacc := 0x500, par := true }) State.elements =
      some ⟨0x500, zeroLanes, true, 0, false, true⟩ := by decide

/-! ## Primitives and the reference: 95_test_vectors.md -/

theorem test_fold1_table : fold1 0x12345678 = 0x68AC ∧ fold1 0xFFFFFFFFFFFFFFFF = 0x000100000000FFFE := by decide

theorem test_fold16_table : fold16 0x2DDF0 = 0xDDF2 ∧ fold16 0xFFFFFFFFFFFFFFFF = 0xFFFF := by decide

theorem test_ocadd_table : ocadd (0x8000 : Word16) 0x8000 = 0x0001 ∧ ocadd (0xFFFE : Word16) 0x0001 = 0xFFFF ∧
    ocadd (0x8000000000000000 : Word64) 0x8000000000000000 = 0x1 := by decide

/-- V-RFC. -/
theorem test_checksumRef_rfc : checksumRef [0x00, 0x01, 0xF2, 0x03, 0xF4, 0xF5, 0xF6, 0xF7] = 0x220D := by decide

/-- V-R19, the odd chunk of P4. -/
theorem test_checksumRef_odd_chunk : checksumRef (0xAB :: (countingChunk.toList ++ [0xCD])) = 0x5341 := by decide

/-! ## The assembler: R54, R55, R56 -/

theorem test_assemble_line_with_comment_and_case :
    assembleLine ['\t', 'b', 'Y', 't', 'e', ' ', '0', 'x', '1', 'F', ' ', ';', ' ', 'n', 'o', 't', 'e'] =
      some [0x3000000000000000000000000000000000000000000000000000000000000001F] := by decide

theorem test_assemble_byte_out_of_range : assembleLine ['B', 'Y', 'T', 'E', ' ', '2', '5', '6'] = none := by decide

/-- `WORD 0x6865`, then `RAW 9, 0`. -/
theorem test_assemble_word_and_raw :
    assemble (['W', 'O', 'R', 'D', ' ', '0', 'x', '6', '8', '6', '5', '\n'] ++ ['R', 'A', 'W', ' ', '9', ',', ' ', '0']) =
      some [0x30000000000000000000000000000000000000000000000000000000000000068,
        0x30000000000000000000000000000000000000000000000000000000000000065,
        0x90000000000000000000000000000000000000000000000000000000000000000] := by decide

/-- `CSUM "a;"` is CLR, BYTE 0x61, BYTE 0x3B, FINAL. -/
theorem test_assemble_csum :
    assembleLine ['C', 'S', 'U', 'M', ' ', '"', 'a', ';', '"'] =
      some ([Instr.clr, .byte 0x61, .byte 0x3B, .final].map encode) := by decide

/-! ## Witnesses: states and operands that meet the premises of the statements -/

/-- A command word of NOP. -/
def nopWord : CmdWord := 0

/-- ResetEdgeResetsEverything, AfterResetTheStreamIsEmpty, ClrKeepsOnlyResAndErr: a reset edge while a command is in flight and
another is presented. -/
def resetting : State :=
  { afterHello with err := true, inFlight := [⟨nopWord, 1⟩], edges := [⟨true, true, 0x6, 0, true⟩] }

theorem witness_reset_edge : resetting.due = none ∧ resetting.pins.rst = true := by decide

/-- ResetIsReachedFromEveryState: the same with a command whose time has come. -/
theorem witness_reset_reached :
    ({ resetting with inFlight := [⟨nopWord, 0⟩] } : State).pins.rst = true ∧
      ({ resetting with inFlight := [⟨nopWord, 0⟩] } : State).due = some nopWord := by decide

/-- A state whose host holds FINAL on the ports. -/
def presenting : State := { State.reset with edges := [Edge.present (encode .final)] }

/-- CommandIsAcceptedExactlyByTheHandshake: the accepting clause. -/
theorem witness_handshake_accepts : presenting.due = none ∧ presenting.pins.rst = false ∧
    presenting.pins.cmdValid = true ∧ presenting.cmdReady = true := by decide

/-- The same: not accepted, held and not held. -/
theorem witness_handshake_stalls :
    ({ presenting with stall := 1 } : State).due = none ∧ ({ presenting with stall := 1 } : State).pins.rst = false ∧
      ¬(({ presenting with stall := 1 } : State).pins.cmdValid = true ∧ ({ presenting with stall := 1 } : State).cmdReady = true) ∧
      ({ presenting with stall := 1 } : State).pins.hold = true ∧
      ({ presenting with stall := 1, edges := [Edge.offer nopWord] } : State).cmdReady = false ∧
      ({ presenting with stall := 1, edges := [Edge.offer nopWord] } : State).pins.hold = false := by decide

/-- A state with one command whose time has come. -/
def running (w : CmdWord) (s : State) : State := { s with inFlight := [⟨w, 0⟩] }

/-- A state with one command accepted whose time has not come. -/
def waiting : State := { afterHello with inFlight := [⟨encode .final, 1⟩] }

/-- InputsAfterAcceptanceDoNotMatter: an edge with a command in flight and none due, the host quiet or presenting. -/
theorem witness_inputs : waiting.due = none ∧ waiting.inFlight.length = 1 ∧
    ({ waiting with edges := [] } : State).pins.rst = false ∧
    ({ waiting with edges := [Edge.offer nopWord] } : State).pins.rst = false ∧
    ({ waiting with edges := [Edge.offer nopWord] } : State).pins.cmdValid = true := by decide

/-- StepRunsTheDecodedCommand, and InputsAfterAcceptanceDoNotMatter at the effect. -/
theorem witness_due : (running nopWord afterHello).inFlight = ⟨nopWord, 0⟩ :: [] ∧ (running nopWord afterHello).due ≠ none := by
  decide

/-- OutputsShowTheStateWhileIdle: idle while nothing is accepted, and while FINAL is (then `par` and `err` still show). -/
theorem witness_outputs : afterHello.idle = true ∧ afterHello.accepting = false ∧ presenting.idle = true ∧
    presenting.accepting = true ∧ ¬(presenting.accepting = true ∧ writesPar (decode presenting.pins.word) = true) ∧
    ¬(presenting.accepting = true ∧ writesErr (decode presenting.pins.word) = true) := by decide

/-- StepsKeepAcceptanceOrder: the accepting clause. -/
theorem witness_order_accepting : ∃ t u, step presenting = .next t ∧ ¬(presenting.due = none ∧ presenting.pins.rst = true) ∧
    execAll presenting.queue presenting = .next u ∧ presenting.due = none ∧ presenting.accepting = true :=
  ⟨_, _, rfl, by decide, rfl, by decide, by decide⟩

/-- StepsKeepAcceptanceOrder: the other clause. -/
theorem witness_order_running : ∃ t u, step (running nopWord afterHello) = .next t ∧
    ¬((running nopWord afterHello).due = none ∧ (running nopWord afterHello).pins.rst = true) ∧
    execAll (running nopWord afterHello).queue (running nopWord afterHello) = .next u ∧
    ¬((running nopWord afterHello).due = none ∧ (running nopWord afterHello).accepting = true) :=
  ⟨_, _, rfl, by decide, rfl, by decide⟩

/-- IdleComesOnceTheHostIsQuiet. -/
theorem witness_quiet_host : ∃ u, (running nopWord afterHello).edges = [] ∧
    execAll (running nopWord afterHello).queue (running nopWord afterHello) = .next u := ⟨_, rfl, rfl⟩

/-- HeldCommandIsAcceptedInTheEnd: held while the block stalls and a command is in flight. -/
theorem witness_held : ({ resetting with edges := [Edge.present nopWord], stall := 7 } : State).edges = Edge.present nopWord :: [] ∧
    (Edge.present nopWord).rst = false ∧ (Edge.present nopWord).cmdValid = true ∧ (Edge.present nopWord).hold = true := by decide

/-- Every clause about a word's opcode is met by some word: OpcodeMapDecodesEveryWord and the statements of the commands, at
each of the 16 opcodes, 0x0, 0x6, 0x7, 0x8 and 0xF among them. -/
theorem witness_every_opcode : ∀ op : BitVec 4, CmdWord.op (CmdWord.mk op 0) = op := by decide

/-- IgnoredBitsHaveNoEffect: two BYTE words that differ in an ignored bit. -/
theorem witness_ignored_bits : CmdWord.mk 0x3 0x005 ≠ CmdWord.mk 0x3 0x105 ∧
    CmdWord.op (CmdWord.mk 0x3 0x005) = CmdWord.op (CmdWord.mk 0x3 0x105) ∧
    (CmdWord.mk 0x3 0x005).extractLsb' 0 8 = (CmdWord.mk 0x3 0x105).extractLsb' 0 8 := by decide

/-- DecodeOfEncodeIsTheCommand: the only premise is met at both ends of the one range it bounds. -/
theorem witness_wellFormed : (Instr.chunk countingChunk).wellFormed = true ∧ (Instr.reservedHigh 0x8).wellFormed = true ∧
    (Instr.reservedHigh 0xF).wellFormed = true := by decide

/-- ChunkAddsAWordIntoEachLane: a full lane, and a zero word for lane 15. -/
theorem witness_chunk_corners : (flat 0xFFFF)[15] = 0xFFFF ∧ (Vector.replicate 32 0 : Chunk)[2 * 15] = 0 ∧
    (Vector.replicate 32 0 : Chunk)[2 * 15 + 1] = 0 := by decide

/-- ByteAddsOneWeightedByte: both parities. -/
theorem witness_byte_parities : State.reset.par = false ∧ afterHello.par = true := by decide

/-- ReduceMovesTheLanesIntoSacc: all lanes zero. -/
theorem witness_reduce_zero_lanes : ∀ k (_ : k < 16), State.reset.wacc[k] = 0 := by decide

/-- FoldFoldsSaccInPlace: the largest value that stays. -/
theorem witness_fold_bound : ({ State.reset with sacc := 0xFFFF } : State).sacc.toNat ≤ 0xFFFF := by decide

/-- ReservedOpcodesSetErrOnly: the first and the last reserved opcode. -/
theorem witness_reserved_bounds : 0x7 ≤ CmdWord.op (CmdWord.mk 0x7 0) ∧ 0x7 ≤ CmdWord.op (CmdWord.mk 0xF 0) := by decide

/-- DefinedCommandsRaiseNothing. -/
theorem witness_defined : Instr.final ≠ .reserved7 ∧ ∀ op, Instr.final ≠ .reservedHigh op := by decide

/-- ElementsAreWrittenOnlyAsTheTableLists: a command that changes SACC, WACC, PAR, RES_VALID; one that changes RES; one that
changes ERR. -/
theorem witness_elements_written :
    after (exec .clr { afterHello with wacc := flat 1 })
      (fun t => decide (t.sacc ≠ 0x43D2 ∧ t.wacc ≠ flat 1 ∧ t.par ≠ true ∧ t.resValid ≠ true)) = some true ∧
    after (exec .final State.reset) (fun t => decide (t.res ≠ State.reset.res)) = some true ∧
    after (exec .reserved7 State.reset) (fun t => decide (t.err ≠ State.reset.err)) = some true := by decide

/-- FlagsAreReadOnlyAsTheRuleSays: PAR replaced for FINAL, kept for BYTE. -/
theorem witness_flags : (∀ b, Instr.final ≠ .byte b) ∧ (∀ bytes, Instr.final ≠ .chunk bytes) ∧ true = afterHello.par ∧
    false ≠ afterHello.par :=
  ⟨fun _ => by simp, fun _ => by simp, rfl, by decide⟩

/-- ErrIsStickyUntilReset: ERR set by a step. -/
theorem witness_err_set : ∃ t, step (running (encode .reserved7) afterHello) = .next t ∧ afterHello.err = false ∧ t.err = true ∧
    (running (encode .reserved7) afterHello).due = some (encode .reserved7) ∧ 0x7 ≤ CmdWord.op (encode .reserved7) :=
  ⟨_, rfl, rfl, by decide, by decide, by decide⟩

/-- ErrIsStickyUntilReset and ResChangesOnlyByFinalOrReset: ERR and RES put back by a reset edge. -/
theorem witness_err_cleared : ∃ t, step resetting = .next t ∧ resetting.err = true ∧ t.err = false ∧ t.res ≠ resetting.res :=
  ⟨_, rfl, rfl, by decide, by decide⟩

/-- ResChangesOnlyByFinalOrReset: RES changed by FINAL. ResValidFollowsTheStream: its clauses with a command and without. -/
theorem witness_res_changes : ∃ t, step (running (encode .final) State.reset) = .next t ∧ t.res ≠ State.reset.res ∧
    (running (encode .final) State.reset).due = some (encode .final) ∧ State.reset.due = none :=
  ⟨_, rfl, by decide, by decide, by decide⟩

/-- OnesComplementAddLaws: the two widths, and two orders of one chain. -/
theorem witness_widths : ((16 : Nat) = 16 ∨ (16 : Nat) = 64) ∧ ((64 : Nat) = 16 ∨ (64 : Nat) = 64) ∧
    List.Perm [(1 : Word16), 0xFFFF] [0xFFFF, 1] := ⟨by decide, by decide, .swap _ _ _⟩

/-- FullFoldRepeatsTheFold: both sides of the bound. -/
theorem witness_fold_sides : 0xFFFF ≤ 0xFFFF ∧ 0x10000 > 0xFFFF := by decide

/-- ReductionTreeLaws and ReductionTreeHalvesTwice: full lanes, the first and the last field. -/
theorem witness_tree : (∀ k (_ : k < 16), (flat 0xFFFF)[k] = 0xFFFF) ∧ 0 < 4 ∧ 3 < 4 := by decide

/-- ConcatenationLaw: an even and an odd length, and the greatest value that swap16 takes. -/
theorem witness_lengths : ([] : List Byte).length % 2 = 0 ∧ ([0x6F] : List Byte).length % 2 = 1 ∧ 0xFFFF ≤ 0xFFFF := by decide

/-- The state after `BYTE 0x05` from reset. -/
def afterFive : State := { State.reset with sacc := 0x500, par := true }

/-- CommandsKeepTheStreamInvariant and StepsKeepTheStreamInvariant: a state that represents the stream `05`. -/
theorem witness_represents : Represents [0x05] afterFive :=
  ⟨by decide, by decide, by decide, by decide⟩

theorem witness_represents_steps : Represents [0x05] (running (encode .final) afterFive) ∧
    ∃ t, step (running (encode .final) afterFive) = .next t :=
  ⟨⟨by decide, by decide, by decide, by decide⟩, ⟨_, rfl⟩⟩

/-- StepsKeepAValidResult: a state with a valid RES. -/
theorem witness_resultFits : (running nopWord afterHello).resValid = true ∧ (running nopWord afterHello).resultFits ∧
    ∃ t, step (running nopWord afterHello) = .next t :=
  ⟨rfl, fun _ => by decide, ⟨_, rfl⟩⟩

/-- CanonicalChunksRunAtEvenParity: 33 bytes. -/
theorem witness_canonical : ∃ before after bytes t, hostSequence (List.replicate 33 0xFF) = before ++ .chunk bytes :: after ∧
    execAll before afterHello = .next t := ⟨[.clr], _, _, _, rfl, rfl⟩

/-- AnySplitOfAStreamGivesTheSameResult: the same stream with and without a REDUCE. -/
theorem witness_splits : streamAfterAll [.byte 1, .reduce, .byte 2] [] = streamAfterAll [.byte 1, .byte 2] [] := by decide

/-- FinalInTheMiddleGivesThePrefix. -/
theorem witness_no_clr : ∀ j ∈ [Instr.byte 2, .fold], j ≠ .clr := by decide

/-- HostReadsTheReferenceAtThePorts. -/
theorem witness_host : ({ afterHello with edges := presentAll (hostSequence [0x05]), stall := 3 } : State).inFlight = [] ∧
    ({ afterHello with edges := presentAll (hostSequence [0x05]), stall := 3 } : State).err = false ∧
    ({ afterHello with edges := presentAll (hostSequence [0x05]), stall := 3 } : State).edges = presentAll (hostSequence [0x05]) :=
  ⟨rfl, rfl, rfl⟩

/-- AssemblerEncodesOperands and PseudoInstructionsExpand: the bounds of their ranges. -/
theorem witness_assembler : (List.replicate 64 'f').length = 64 ∧
    (∀ c ∈ List.replicate 64 'f', (hexDigit c).isSome = true) ∧ (List.replicate 63 'f').length ≠ 64 ∧
    255 ≤ 255 ∧ 255 < 256 ∧ 15 ≤ 15 ∧ 0 < 2 ^ 256 ∧ 0xFFFF ≤ 0xFFFF :=
  ⟨by simp, fun c hc => by rw [List.eq_of_mem_replicate hc]; decide, by simp, by decide⟩

end Sys2Proof.Tests
end

section
/-! PROOF. The next state of each command, what each element of R17 holds after a command, and the opcodes that write it. -/

namespace Sys2Proof

/-- Decoding keeps the opcode field (R48). -/
theorem decode_opcode (w : CmdWord) : (decode w).opcode = CmdWord.op w := by
  unfold decode
  split <;> simp_all [Instr.opcode]

/-- Every word decodes to a term that stands for a word (R52). -/
theorem decode_wellFormed (w : CmdWord) : (decode w).wellFormed = true := by
  unfold decode
  split
  case h_9 => simp only [Instr.wellFormed, decide_eq_true_eq, imp_false] at *; bv_omega
  all_goals rfl

/-- What a well-formed command's opcode tells of the command, a word's opcode tells of what it decodes to. -/
theorem apply_decode {f : Instr → Bool} {g : BitVec 4 → Bool} (h : ∀ i, i.wellFormed = true → f i = g i.opcode)
    (w : CmdWord) : f (decode w) = g (CmdWord.op w) :=
  decode_opcode w ▸ h (decode w) (decode_wellFormed w)

namespace Machine

variable {i : Instr} {s t : State}

/-! ## The next state of each command -/

@[simp] theorem exec_nop (s : State) : exec .nop s = .next s := rfl

@[simp] theorem exec_clr (s : State) :
    exec .clr s = .next ((((s.setSacc 0).setWacc zeroLanes).setPar false).setResValid false) := rfl

@[simp] theorem exec_chunk (bytes : Chunk) (s : State) :
    exec (.chunk bytes) s = .next ((s.setWacc (addLanes s.wacc (laneWords s.par bytes))).setResValid false) := rfl

@[simp] theorem exec_byte (b : Byte) (s : State) :
    exec (.byte b) s =
      .next (((s.setSacc (ocadd s.sacc (byteValue s.par b))).setPar (nextPar s.par)).setResValid false) := rfl

@[simp] theorem exec_reduce (s : State) :
    exec .reduce s = .next ((s.setSacc s.reducedSacc).setWacc zeroLanes) := rfl

@[simp] theorem exec_fold (s : State) : exec .fold s = .next (s.setSacc ((foldUnit s.sacc).zeroExtend 64)) := rfl

@[simp] theorem exec_final (s : State) :
    exec .final s =
      .next ((((s.setSacc ((foldUnit s.reducedSacc).zeroExtend 64)).setWacc zeroLanes).setRes
        (cpl16 (foldUnit s.reducedSacc))).setResValid true) := rfl

@[simp] theorem exec_reserved7 (s : State) : exec .reserved7 s = .next s.raiseReservedCommand := rfl

@[simp] theorem exec_reservedHigh (op : BitVec 4) (s : State) :
    exec (.reservedHigh op) s = .next s.raiseReservedCommand := rfl

/-- Every command completes in every state (R92, R93). -/
theorem exec_total (i : Instr) (s : State) : ∃ t, exec i s = .next t := by
  cases i <;> exact ⟨_, rfl⟩

/-! ## Each flag and RES after a command, in terms of what R17 lists as written -/

theorem exec_res_of_not_written (h : exec i s = .next t) (hi : writesRes i = false) : t.res = s.res := by
  cases i with
  | final => simp [writesRes] at hi
  | _ => cases h; rfl

theorem exec_par_of_not_written (h : exec i s = .next t) (hi : writesPar i = false) : t.par = s.par := by
  cases i with
  | clr | byte => simp [writesPar] at hi
  | _ => cases h; rfl

/-- RES_VALID is set by the command that writes RES, and cleared by the others that write it (R22). -/
theorem exec_resValid (h : exec i s = .next t) :
    t.resValid = if writesResValid i then writesRes i else s.resValid := by
  cases i <;> cases h <;> rfl

/-- ERR is only ever raised (R23). -/
theorem exec_err (h : exec i s = .next t) : t.err = (s.err || writesErr i) := by
  cases i <;> cases h <;> simp [writesErr]

/-! ## The commands and the opcodes that write a flag or RES -/

theorem writesRes_iff : writesRes i = true ↔ i = .final := by
  cases i <;> simp [writesRes]

theorem writesResValid_iff :
    writesResValid i = true ↔ i = .clr ∨ (∃ bytes, i = .chunk bytes) ∨ (∃ b, i = .byte b) ∨ i = .final := by
  cases i <;> simp [writesResValid]

theorem writesPar_iff : writesPar i = true ↔ i = .clr ∨ ∃ b, i = .byte b := by
  cases i <;> simp [writesPar]

theorem writesErr_iff : writesErr i = true ↔ i = .reserved7 ∨ ∃ op, i = .reservedHigh op := by
  cases i <;> simp [writesErr]

theorem writesRes_decode (w : CmdWord) : writesRes (decode w) = decide (CmdWord.op w = 0x6) := by
  refine apply_decode (g := fun op => decide (op = 0x6)) (fun i hw => ?_) w
  cases i with
  | reservedHigh op => revert op; decide
  | _ => rfl

theorem writesResValid_decode (w : CmdWord) :
    writesResValid (decode w) = decide (0x1 ≤ CmdWord.op w ∧ CmdWord.op w ≤ 0x3 ∨ CmdWord.op w = 0x6) := by
  refine apply_decode (g := fun op => decide (0x1 ≤ op ∧ op ≤ 0x3 ∨ op = 0x6)) (fun i hw => ?_) w
  cases i with
  | reservedHigh op => revert op; decide
  | _ => rfl

theorem writesErr_decode (w : CmdWord) : writesErr (decode w) = decide (0x7 ≤ CmdWord.op w) := by
  refine apply_decode (g := fun op => decide (0x7 ≤ op)) (fun i hw => ?_) w
  cases i with
  | reservedHigh op => revert op; decide
  | _ => rfl

end Machine
end Sys2Proof
end

section
/-! PROOF. The six elements as one value: a command reads and writes nothing else of the state, so a run of commands from two
states with the same elements gives the same elements. -/

namespace Sys2Proof.Machine

variable {i : Instr} {is : List Instr} {s s' t u : State}

@[simp] theorem State.elements_retire (s : State) : s.retire.elements = s.elements := rfl

@[simp] theorem State.elements_runEdge (s : State) : s.runEdge.elements = s.elements := rfl

@[simp] theorem State.elements_resetEdge (s : State) : s.resetEdge.elements = State.reset.elements := rfl

theorem exec_congr_elements (h : exec i s = .next t) (hs : s'.elements = s.elements) :
    ∃ t', exec i s' = .next t' ∧ t'.elements = t.elements := by
  simp only [State.elements, Elements.mk.injEq] at hs
  obtain ⟨hsacc, hwacc, hpar, hres, hvalid, herr⟩ := hs
  exact ⟨_, exec_congr h ⟨hsacc.symm, hwacc.symm, hpar.symm, hres.symm, hvalid.symm, herr.symm⟩, rfl⟩

@[simp] theorem execAll_nil (s : State) : execAll [] s = .next s := rfl

theorem execAll_cons_of_next (h : exec i s = .next t) : execAll (i :: is) s = execAll is t := by
  simp only [execAll, h]

theorem execAll_cons_eq_next : execAll (i :: is) s = .next u ↔ ∃ t, exec i s = .next t ∧ execAll is t = .next u := by
  obtain ⟨t, ht⟩ := exec_total i s
  simp [execAll_cons_of_next ht, ht]

theorem execAll_append_of_next {js : List Instr} (h : execAll is s = .next t) :
    execAll (is ++ js) s = execAll js t := by
  induction is generalizing s with
  | nil => cases h; rfl
  | cons i is ih =>
    obtain ⟨r, hr, hrt⟩ := execAll_cons_eq_next.mp h
    rw [List.cons_append, execAll_cons_of_next hr, ih hrt]

theorem execAll_congr_elements (h : execAll is s = .next t) (hs : s'.elements = s.elements) :
    ∃ t', execAll is s' = .next t' ∧ t'.elements = t.elements := by
  induction is generalizing s s' with
  | nil => cases h; exact ⟨s', rfl, hs⟩
  | cons i is ih =>
    obtain ⟨r, hr, hrt⟩ := execAll_cons_eq_next.mp h
    obtain ⟨r', hr', he⟩ := exec_congr_elements hr hs
    rw [execAll_cons_of_next hr']
    exact ih hrt he

/-! ## The queue of commands in flight over a step -/

theorem queue_of_due {w : CmdWord} (h : s.due = some w) : s.queue = decode w :: s.retire.queue := by
  obtain ⟨rest, hq⟩ := due_eq_some.mp h
  simp [State.queue, hq]

theorem queue_eq_of_exec (h : exec i s = .next t) : t.queue = s.queue := by
  rw [State.queue, State.queue, (exec_frame h).1]

/-- An edge without reset keeps the commands in flight in order, behind them the command it accepts (R42). -/
theorem queue_runEdge (s : State) :
    s.runEdge.queue = s.queue ++ if s.accepting then [decode s.pins.word] else [] := by
  have haged : (fun p : Pending => decode p.word) ∘ Pending.age = fun p => decode p.word := rfl
  unfold State.queue
  simp only [State.inFlight_runEdge, State.accepted, List.map_append, List.map_map, haged]
  split <;> rfl

/-- A command that takes effect by a step leaves the outcome of the commands in flight. -/
theorem execAll_queue_of_due {w : CmdWord} (hd : s.due = some w) (h : exec (decode w) s.retire = .next t)
    (hu : execAll s.queue s = .next u) : ∃ v, execAll t.queue t = .next v ∧ v.elements = u.elements := by
  rw [queue_of_due hd] at hu
  obtain ⟨r, hr, hru⟩ := execAll_cons_eq_next.mp hu
  obtain ⟨t', ht', he⟩ := exec_congr_elements hr (State.elements_retire s)
  obtain rfl : t' = t := by simpa [ht'] using h
  rw [queue_eq_of_exec h]
  exact execAll_congr_elements hru he

/-- Settles O10: a step commutes with letting the commands in flight take effect. The first command in flight is the one that a
step runs, and the command that an edge accepts stands behind all of them. -/
theorem stepsKeepAcceptanceOrder : Obligations.StepsKeepAcceptanceOrder := by
  unfold Obligations.StepsKeepAcceptanceOrder
  intro s t u hstep hreset hu
  obtain ⟨w, hd, ht⟩ | ⟨hd, hr, -⟩ | ⟨hd, -, rfl⟩ := step_cases hstep
  · refine ⟨fun h => ?_, fun _ => execAll_queue_of_due hd ht hu⟩
    simp [hd] at h
  · exact absurd ⟨hd, hr⟩ hreset
  · obtain ⟨v, hv, he⟩ := execAll_congr_elements hu (State.elements_runEdge s)
    rw [queue_runEdge]
    refine ⟨fun ⟨_, ha⟩ => ?_, fun hn => ?_⟩
    · obtain ⟨u', hu'⟩ := exec_total (decode s.pins.word) u
      obtain ⟨v', hv', he'⟩ := exec_congr_elements hu' he
      refine ⟨v', u', ?_, hu', he'⟩
      rw [if_pos ha, execAll_append_of_next hv, execAll_cons_of_next hv', execAll_nil]
    · have ha : ¬s.accepting = true := fun ha => hn ⟨hd, ha⟩
      refine ⟨v, ?_, he⟩
      rw [if_neg ha, List.append_nil, hv]

end Sys2Proof.Machine
end

section
/-! PROOF. Folding, the one's-complement add and the reduction tree, each known by its value modulo 0xFFFF, by when it is 0, and
by its bound: `FOLD16` is determined by these three (spec/40_reference.md R60 to R64, spec/42_finish.md R77 to R81). -/

namespace Sys2Proof.Machine

/-! ## FOLD16 -/

theorem fold1_mod (x : Nat) : fold1 x % 0xFFFF = x % 0xFFFF := by
  rw [fold1_eq]; omega

theorem fold1_eq_zero {x : Nat} : fold1 x = 0 ↔ x = 0 := by
  rw [fold1_eq]; omega

theorem fold1_lt {x : Nat} (h : 0xFFFF < x) : fold1 x < x := by
  rw [fold1_eq]; omega

theorem foldFuel_mod (fuel x : Nat) : foldFuel fuel x % 0xFFFF = x % 0xFFFF := by
  induction fuel generalizing x with
  | zero => rfl
  | succ fuel ih =>
    unfold foldFuel
    split
    · rfl
    · rw [ih, fold1_mod]

theorem foldFuel_eq_zero {fuel x : Nat} : foldFuel fuel x = 0 ↔ x = 0 := by
  induction fuel generalizing x with
  | zero => rfl
  | succ fuel ih =>
    unfold foldFuel
    split
    · rfl
    · rw [ih, fold1_eq_zero]

/-- A fold above 0xFFFF lowers the value, so a unit of fuel for each value above 0xFFFF is enough. -/
theorem foldFuel_le {fuel x : Nat} (h : x ≤ fuel + 0xFFFF) : foldFuel fuel x ≤ 0xFFFF := by
  induction fuel generalizing x with
  | zero => simpa [foldFuel] using h
  | succ fuel ih =>
    unfold foldFuel
    split
    next hx => exact hx
    next hx =>
      have := fold1_lt (Nat.lt_of_not_le hx)
      exact ih (by omega)

theorem fold16_mod (x : Nat) : fold16 x % 0xFFFF = x % 0xFFFF := foldFuel_mod x x

theorem fold16_eq_zero {x : Nat} : fold16 x = 0 ↔ x = 0 := foldFuel_eq_zero

theorem fold16_le (x : Nat) : fold16 x ≤ 0xFFFF := foldFuel_le (Nat.le_add_right x _)

/-- Of the two 16-bit values in one class modulo 0xFFFF, `FOLD16` is the one that is 0 exactly with `x`. -/
theorem eq_fold16 {x y : Nat} (hle : y ≤ 0xFFFF) (hmod : y % 0xFFFF = x % 0xFFFF) (hzero : y = 0 ↔ x = 0) :
    y = fold16 x := by
  have hle' := fold16_le x
  have hmod' := fold16_mod x
  have hzero' := fold16_eq_zero (x := x)
  omega

theorem fold16_congr {x y : Nat} (hmod : x % 0xFFFF = y % 0xFFFF) (hzero : x = 0 ↔ y = 0) : fold16 x = fold16 y :=
  eq_fold16 (fold16_le x) ((fold16_mod x).trans hmod) (fold16_eq_zero.trans hzero)

theorem fold16_of_le {x : Nat} (h : x ≤ 0xFFFF) : fold16 x = x := (eq_fold16 h rfl Iff.rfl).symm

theorem fold16_fold16_add (x y : Nat) : fold16 (fold16 x + y) = fold16 (x + y) := by
  have hmod := fold16_mod x
  have hzero := fold16_eq_zero (x := x)
  exact fold16_congr (by omega) (by omega)

/-! ## The folding unit -/

theorem fold1_stage1_le {x : Nat} (h : x < 2 ^ 64) : fold1 x ≤ 2 ^ 48 + 0xFFFE := by
  rw [fold1_eq]; omega

theorem fold1_stage2_le {x : Nat} (h : x ≤ 2 ^ 48 + 0xFFFE) : fold1 x ≤ 2 ^ 32 + 0xFFFE := by
  rw [fold1_eq]; omega

theorem fold1_stage3_le {x : Nat} (h : x ≤ 2 ^ 32 + 0xFFFE) : fold1 x ≤ 0x1FFFE := by
  rw [fold1_eq]; omega

theorem fold1_stage4_le {x : Nat} (h : x ≤ 0x1FFFE) : fold1 x ≤ 0xFFFF := by
  rw [fold1_eq]; omega

/-- The four-stage unit is the full fold (R81). -/
theorem foldUnit_toNat (x : Word64) : (foldUnit x).toNat = fold16 x.toNat := by
  have hle := fold1_stage4_le (fold1_stage3_le (fold1_stage2_le (fold1_stage1_le x.isLt)))
  rw [foldUnit, BitVec.toNat_ofNat, Nat.mod_eq_of_lt (Nat.lt_succ_of_le hle)]
  exact eq_fold16 hle (by simp only [fold1_mod]) (by simp only [fold1_eq_zero])

/-! ## The one's-complement add -/

/-- A carry out of bit W-1 stands for 2^W, which is 1 modulo every divisor of 2^W - 1 (R64). -/
theorem ocadd_toNat_mod {w d : Nat} (hd : d ∣ 2 ^ w - 1) (a b : BitVec w) :
    (ocadd a b).toNat % d = (a.toNat + b.toNat) % d := by
  rw [ocadd_toNat]
  split
  next hcarry =>
    have hpow := Nat.two_pow_pos w
    obtain ⟨q, hq⟩ := hd
    have hsum : a.toNat + b.toNat = a.toNat + b.toNat - 2 ^ w + 1 + d * q := by omega
    calc (a.toNat + b.toNat - 2 ^ w + 1) % d
        = (a.toNat + b.toNat - 2 ^ w + 1 + d * q) % d := (Nat.add_mul_mod_self_left _ d q).symm
      _ = (a.toNat + b.toNat) % d := by rw [← hsum]
  next => rfl

theorem ocadd_toNat_eq_zero {w : Nat} {a b : BitVec w} : (ocadd a b).toNat = 0 ↔ a.toNat = 0 ∧ b.toNat = 0 := by
  have hpow := Nat.two_pow_pos w
  rw [ocadd_toNat]
  split <;> omega

theorem ocadd16_mod (a b : Word16) : (ocadd a b).toNat % 0xFFFF = (a.toNat + b.toNat) % 0xFFFF :=
  ocadd_toNat_mod (by decide) a b

theorem ocadd64_mod (a b : Word64) : (ocadd a b).toNat % 0xFFFF = (a.toNat + b.toNat) % 0xFFFF :=
  ocadd_toNat_mod (by decide) a b

/-! ## The lanes and the reduction tree -/

/-- The exact sum of the lanes, the second part of `A` (R87). -/
def laneSum (w : Lanes) : Nat := (w.toList.map BitVec.toNat).sum

theorem total_eq (s : State) : s.total = s.sacc.toNat + laneSum s.wacc := rfl

theorem laneSum_eq_sum (w : Lanes) : laneSum w = ∑ k : Fin 16, w[k].toNat := by
  have hlist : w.toList = List.ofFn fun k : Fin 16 => w[k] := by
    refine List.ext_getElem (by rw [Vector.length_toList, List.length_ofFn]) fun k _ _ => ?_
    rw [List.getElem_ofFn, Vector.getElem_toList]
    rfl
  rw [laneSum, hlist, List.map_ofFn, List.sum_ofFn]
  rfl

@[simp] theorem laneSum_zeroLanes : laneSum zeroLanes = 0 := by decide

/-- The field `Q[j]` of the tree's output (R77). -/
def treeField (w : Lanes) (j : Nat) (hj : j < 4) : Word16 := ocadd (ocadd w[j] w[j + 8]) (ocadd w[j + 4] w[j + 12])

/-- The exact sum of the four lanes that the tree brings into field `j` (R77). -/
def fieldSum (w : Lanes) (j : Nat) (hj : j < 4) : Nat :=
  w[j].toNat + w[j + 8].toNat + (w[j + 4].toNat + w[j + 12].toNat)

theorem treeField_mod (w : Lanes) (j : Nat) (hj : j < 4) :
    (treeField w j hj).toNat ≡ fieldSum w j hj [MOD 0xFFFF] :=
  (ocadd16_mod _ _).trans (Nat.ModEq.add (ocadd16_mod w[j] w[j + 8]) (ocadd16_mod w[j + 4] w[j + 12]))

theorem treeField_eq_zero (w : Lanes) (j : Nat) (hj : j < 4) :
    (treeField w j hj).toNat = 0 ↔ fieldSum w j hj = 0 := by
  simp only [treeField, fieldSum, ocadd_toNat_eq_zero, Nat.add_eq_zero_iff]

theorem laneSum_eq_fieldSums (w : Lanes) :
    laneSum w = fieldSum w 3 (by decide) + fieldSum w 2 (by decide) + fieldSum w 1 (by decide)
      + fieldSum w 0 (by decide) := by
  rw [laneSum_eq_sum]
  simp only [Fin.sum_univ_succ, Finset.univ_eq_empty, Finset.sum_empty, add_zero, Fin.getElem_fin, Fin.val_succ,
    Fin.val_zero, Nat.reduceAdd, fieldSum, zero_add]
  ac_rfl

theorem reduceTree_toNat_eq_treeFields (w : Lanes) :
    (reduceTree w).toNat = (treeField w 3 (by decide)).toNat * 2 ^ 48 + (treeField w 2 (by decide)).toNat * 2 ^ 32
      + (treeField w 1 (by decide)).toNat * 2 ^ 16 + (treeField w 0 (by decide)).toNat := by
  rw [reduceTree_toNat]
  simp only [treeField, Nat.reduceAdd]

/-- Each field's weight is a power of 2^16, which is 1 modulo 0xFFFF. -/
theorem fieldWeights_mod (q3 q2 q1 q0 : Nat) :
    (q3 * 2 ^ 48 + q2 * 2 ^ 32 + q1 * 2 ^ 16 + q0) % 0xFFFF = (q3 + q2 + q1 + q0) % 0xFFFF := by
  omega

/-- The tree's output is the sum of the lanes modulo 0xFFFF (R78). -/
theorem reduceTree_mod (w : Lanes) : (reduceTree w).toNat % 0xFFFF = laneSum w % 0xFFFF := by
  rw [reduceTree_toNat_eq_treeFields, laneSum_eq_fieldSums, fieldWeights_mod]
  exact (((treeField_mod w 3 _).add (treeField_mod w 2 _)).add (treeField_mod w 1 _)).add (treeField_mod w 0 _)

/-- The tree's output is 0 exactly when every lane is (R78). -/
theorem reduceTree_eq_zero {w : Lanes} : (reduceTree w).toNat = 0 ↔ laneSum w = 0 := by
  simp only [reduceTree_toNat_eq_treeFields, laneSum_eq_fieldSums, Nat.add_eq_zero_iff, Nat.mul_eq_zero,
    treeField_eq_zero, Nat.reducePow, OfNat.ofNat_ne_zero, or_false]

/-- Reduction keeps the fold of `A` (R79, R87). -/
theorem fold16_reducedSacc (s : State) : fold16 s.reducedSacc.toNat = fold16 s.total := by
  have hmod := ocadd64_mod s.sacc (reduceTree s.wacc)
  have htree := reduceTree_mod s.wacc
  have hzero := ocadd_toNat_eq_zero (a := s.sacc) (b := reduceTree s.wacc)
  have htree' := reduceTree_eq_zero (w := s.wacc)
  rw [State.reducedSacc, total_eq]
  exact fold16_congr (by omega) (by omega)

end Sys2Proof.Machine
end

section
/-! PROOF. A valid RES is the complement of the folded `A`, kept by every command and every edge (R22, R87 item 4). -/

namespace Sys2Proof.Machine

variable {i : Instr} {s t : State}

theorem resultFits_of_resValid_false (h : t.resValid = false) : t.resultFits := fun hv => by
  simp [h] at hv

/-- A command that keeps RES, RES_VALID and the fold of `A` keeps the fit. -/
theorem resultFits_of_same_fold (h : s.resultFits) (hvalid : t.resValid = s.resValid) (hres : t.res = s.res)
    (hfold : fold16 t.total = fold16 s.total) : t.resultFits := fun hv => by
  rw [hres, hfold]
  exact h (hvalid ▸ hv)

theorem foldUnit_zeroExtend_toNat (x : Word64) : ((foldUnit x).zeroExtend 64).toNat = fold16 x.toNat := by
  have hle := fold16_le x.toNat
  refine (BitVec.toNat_setWidth 64 (foldUnit x)).trans ?_
  rw [foldUnit_toNat]
  omega

/-- FINAL latches the complement of the folded `A` (R83). -/
theorem cpl16_foldUnit_reducedSacc (s : State) :
    cpl16 (foldUnit s.reducedSacc) = cpl16 (BitVec.ofNat 16 (fold16 s.total)) := by
  rw [← fold16_reducedSacc, ← foldUnit_toNat, BitVec.ofNat_toNat, BitVec.setWidth_eq]

/-- REDUCE keeps the fold of `A` (R79). -/
theorem fold16_total_of_reduce (h : exec .reduce s = .next t) : fold16 t.total = fold16 s.total := by
  cases h
  simpa [total_eq] using fold16_reducedSacc s

/-- FOLD keeps the fold of `A` (R82). -/
theorem fold16_total_of_fold (h : exec .fold s = .next t) : fold16 t.total = fold16 s.total := by
  cases h
  rw [total_eq, total_eq, State.sacc_setSacc, State.wacc_setSacc, foldUnit_zeroExtend_toNat, fold16_fold16_add]

/-- FINAL keeps the fold of `A` (R83, R90). -/
theorem fold16_total_of_final (h : exec .final s = .next t) : fold16 t.total = fold16 s.total := by
  cases h
  show fold16 (((foldUnit s.reducedSacc).zeroExtend 64).toNat + laneSum zeroLanes) = fold16 s.total
  rw [foldUnit_zeroExtend_toNat, fold16_fold16_add, laneSum_zeroLanes, Nat.add_zero, fold16_reducedSacc]

theorem exec_keeps_resultFits (hs : s.resultFits) (h : exec i s = .next t) : t.resultFits := by
  cases i with
  | clr | chunk _ | byte _ => exact resultFits_of_resValid_false (exec_resValid h)
  | nop | reserved7 | reservedHigh _ => cases h; exact hs
  | reduce => exact resultFits_of_same_fold hs (exec_resValid h) (exec_res_of_not_written h rfl) (fold16_total_of_reduce h)
  | fold => exact resultFits_of_same_fold hs (exec_resValid h) (exec_res_of_not_written h rfl) (fold16_total_of_fold h)
  | final =>
    intro _
    rw [fold16_total_of_final h]
    cases h
    exact cpl16_foldUnit_reducedSacc s

/-- Settles O48: commands keep the fit one by one, a reset edge makes RES invalid, and any other edge holds all elements. -/
theorem stepsKeepAValidResult : Obligations.StepsKeepAValidResult := by
  unfold Obligations.StepsKeepAValidResult
  intro s t hs hstep
  obtain ⟨w, -, h⟩ | ⟨-, -, rfl⟩ | ⟨-, -, rfl⟩ := step_cases hstep
  · exact exec_keeps_resultFits (s := s.retire) hs h
  · exact resultFits_of_resValid_false (State.resValid_resetEdge s)
  · exact hs

end Sys2Proof.Machine
end

section
/-! PROOF. Which elements a command writes and which flags it reads (R17, R24, R26). -/

namespace Sys2Proof.Machine

variable {i : Instr} {s t : State}

theorem exec_sacc_changed (h : exec i s = .next t) (hne : t.sacc ≠ s.sacc) :
    i = .clr ∨ (∃ b, i = .byte b) ∨ i = .reduce ∨ i = .fold ∨ i = .final := by
  cases i with
  | nop | chunk _ | reserved7 | reservedHigh _ => cases h; exact absurd rfl hne
  | _ => simp

theorem exec_wacc_changed (h : exec i s = .next t) (hne : t.wacc ≠ s.wacc) :
    i = .clr ∨ (∃ bytes, i = .chunk bytes) ∨ i = .reduce ∨ i = .final := by
  cases i with
  | nop | byte _ | fold | reserved7 | reservedHigh _ => cases h; exact absurd rfl hne
  | _ => simp

theorem exec_resValid_of_not_written (h : exec i s = .next t) (hi : writesResValid i = false) :
    t.resValid = s.resValid := by
  simp [exec_resValid h, hi]

theorem exec_err_of_not_written (h : exec i s = .next t) (hi : writesErr i = false) : t.err = s.err := by
  simp [exec_err h, hi]

/-- Settles O29: an element outside a command's column of R17 is kept, so one that differs is in it. -/
theorem elementsAreWrittenOnlyAsTheTableLists : Obligations.ElementsAreWrittenOnlyAsTheTableLists := by
  unfold Obligations.ElementsAreWrittenOnlyAsTheTableLists
  intro i s t h
  refine ⟨exec_sacc_changed h, exec_wacc_changed h, fun hne => writesPar_iff.mp ?_, fun hne => writesRes_iff.mp ?_,
    fun hne => writesResValid_iff.mp ?_, fun hne => writesErr_iff.mp ?_⟩
  · exact Bool.of_not_eq_false fun hi => hne (exec_par_of_not_written h hi)
  · exact Bool.of_not_eq_false fun hi => hne (exec_res_of_not_written h hi)
  · exact Bool.of_not_eq_false fun hi => hne (exec_resValid_of_not_written h hi)
  · exact Bool.of_not_eq_false fun hi => hne (exec_err_of_not_written h hi)

/-- A command run with other flags writes the same: the flags it writes come out as before, the others are the ones given. -/
theorem exec_of_replaced_flags {p : Bool} (v e : Bool) (h : exec i s = .next t)
    (hp : p = s.par ∨ (∀ b, i ≠ .byte b) ∧ ∀ bytes, i ≠ .chunk bytes) :
    exec i { s with par := p, resValid := v, err := e } = .next { t with
      par := if writesPar i then t.par else p
      resValid := if writesResValid i then t.resValid else v
      err := if writesErr i then t.err else e } := by
  cases i with
  | chunk _ | byte _ =>
    obtain rfl : p = s.par := by simpa using hp
    cases h
    rfl
  | _ => cases h; rfl

/-- Settles O30: the run with replaced flags is the first run with the flags it does not write replaced. -/
theorem flagsAreReadOnlyAsTheRuleSays : Obligations.FlagsAreReadOnlyAsTheRuleSays := by
  unfold Obligations.FlagsAreReadOnlyAsTheRuleSays
  intro i s p v e hp
  obtain ⟨t, h⟩ := exec_total i s
  refine ⟨t, _, h, exec_of_replaced_flags v e h hp, rfl, rfl, rfl, ?_, ?_, ?_, ?_⟩
  · intro heq
    cases hi : writesPar i with
    | true => rfl
    | false => exact heq.trans (exec_par_of_not_written h hi).symm
  · cases hi : writesPar i with
    | true => exact .inr rfl
    | false => exact .inl ⟨exec_par_of_not_written h hi, rfl⟩
  · cases hi : writesResValid i with
    | true => exact .inr rfl
    | false => exact .inl ⟨exec_resValid_of_not_written h hi, rfl⟩
  · cases hi : writesErr i with
    | true => exact .inr rfl
    | false => exact .inl ⟨exec_err_of_not_written h hi, rfl⟩

end Sys2Proof.Machine
end

section
/-! PROOF. The outputs while idle, and ERR, RES and RES_VALID over a step (R21, R22, R23, R29). -/

namespace Sys2Proof.Machine

variable {s t : State}

/-- An idle output shows its register unless a command that writes it is being accepted (R29, R112; log entry 6). -/
theorem settledFor_of_idle {writes : Instr → Bool} (hidle : s.idle = true)
    (hno : ¬(s.accepting = true ∧ writes (decode s.pins.word) = true)) : s.settledFor writes = true := by
  rw [State.settledFor, hidle, Bool.true_and, Bool.not_eq_true', ← Bool.not_eq_true, Bool.and_eq_true]
  exact hno

theorem errPort_of_idle (hidle : s.idle = true)
    (hno : ¬(s.accepting = true ∧ writesErr (decode s.pins.word) = true)) : s.errPort = s.err :=
  if_pos (settledFor_of_idle hidle hno)

/-- Settles O9: with `idle = 1` each output is settled for the commands that write its register, save those being accepted. -/
theorem outputsShowTheStateWhileIdle : Obligations.OutputsShowTheStateWhileIdle := by
  unfold Obligations.OutputsShowTheStateWhileIdle
  intro s hidle
  exact ⟨fun hno => if_pos (settledFor_of_idle hidle hno), fun hno => if_pos (settledFor_of_idle hidle hno),
    fun hno => if_pos (settledFor_of_idle hidle hno), errPort_of_idle hidle⟩

/-- Settles O31: a due command raises ERR or keeps it, a reset edge clears it, any other edge keeps it. -/
theorem errIsStickyUntilReset : Obligations.ErrIsStickyUntilReset := by
  unfold Obligations.ErrIsStickyUntilReset
  refine ⟨rfl, fun s hidle hacc => errPort_of_idle hidle (by simp [hacc]), fun s t hstep => ?_⟩
  obtain ⟨w, hd, h⟩ | ⟨hd, hr, rfl⟩ | ⟨hd, -, rfl⟩ := step_cases hstep
  · have herr : t.err = (s.err || decide (0x7 ≤ CmdWord.op w)) := by
      rw [exec_err h, writesErr_decode, State.err_retire]
    simp +contextual [hd, herr]
  · simp [hd, hr]
  · simp +contextual [hd]

/-- Settles O32: a due command that changes RES has FINAL's opcode, and of the two edges only the reset edge writes RES. -/
theorem resChangesOnlyByFinalOrReset : Obligations.ResChangesOnlyByFinalOrReset := by
  unfold Obligations.ResChangesOnlyByFinalOrReset
  intro s t hstep hne
  obtain ⟨w, hd, h⟩ | ⟨hd, hr, rfl⟩ | ⟨-, -, rfl⟩ := step_cases hstep
  · have hw : writesRes (decode w) = true :=
      Bool.of_not_eq_false fun hi => hne (exec_res_of_not_written (s := s.retire) h hi)
    exact .inl ⟨w, hd, by simpa [writesRes_decode] using hw⟩
  · exact .inr ⟨hd, hr, rfl⟩
  · exact absurd rfl hne

/-- RES_VALID after a command, by its opcode (R22). -/
theorem exec_decode_resValid {w : CmdWord} (h : exec (decode w) s = .next t) :
    t.resValid =
      if 0x1 ≤ CmdWord.op w ∧ CmdWord.op w ≤ 0x3 ∨ CmdWord.op w = 0x6 then decide (CmdWord.op w = 0x6) else s.resValid := by
  simp only [exec_resValid h, writesResValid_decode, writesRes_decode, decide_eq_true_eq]

/-- Settles O33: the clauses list the opcodes, and the last is the two kinds of edge. -/
theorem resValidFollowsTheStream : Obligations.ResValidFollowsTheStream := by
  unfold Obligations.ResValidFollowsTheStream
  intro s t hstep
  obtain ⟨w, hd, h⟩ | ⟨hd, hr, rfl⟩ | ⟨hd, hr, rfl⟩ := step_cases hstep
  · have hvalid := exec_decode_resValid h
    rw [State.resValid_retire] at hvalid
    refine ⟨fun w' hw' => ?_, fun hn => by simp [hd] at hn⟩
    obtain rfl : w = w' := by simpa [hd] using hw'
    refine ⟨fun hop => ?_, fun hop => ?_, fun hop => ?_⟩
    · simp [hvalid, hop]
    · rcases hop with hop | hop | hop <;> simp [hvalid, hop]
    · rw [hvalid, if_neg (by bv_omega)]
  · simp [hd, hr]
  · simp [hd, hr]

/-- Settles O1: R17's reset values, field by field. -/
theorem resetStateHoldsTheTablesValues : Obligations.ResetStateHoldsTheTablesValues := by
  unfold Obligations.ResetStateHoldsTheTablesValues
  exact ⟨rfl, getElem_zeroLanes, rfl, rfl, rfl, rfl, rfl, rfl, rfl⟩

/-- With a due command at the head, the step is that command's meaning in the state with the head removed. -/
theorem step_of_head {w : CmdWord} {rest : List Pending} (hq : s.inFlight = ⟨w, 0⟩ :: rest) :
    step s = exec (decode w) { s with inFlight := rest, tick := s.tick + 1 } := by
  rw [step_of_due (due_eq_some.mpr ⟨rest, hq⟩), State.retire, hq, List.tail_cons]

/-- Settles O6: both clauses are states with a due command at the head of the queue. -/
theorem stepRunsTheDecodedCommand : Obligations.StepRunsTheDecodedCommand := by
  unfold Obligations.StepRunsTheDecodedCommand
  exact ⟨fun _ _ _ hq => step_of_head hq, fun s nbits w => step_of_head (s := s.withFetchWord nbits w) rfl⟩

end Sys2Proof.Machine
end

section
/-! PROOF. The weighted sum of a stream, and the reference checksum as the complement of its fold (spec/40_reference.md R59, R66,
R68). -/

namespace Sys2Proof.Machine

/-! ## The weighted sum -/

theorem contrib_add_two (b : Byte) (p : Nat) : contrib b (p + 2) = contrib b p := by
  simp only [contrib, Nat.add_mod_right]

theorem contrib_eq_zero {b : Byte} {p : Nat} : contrib b p = 0 ↔ b = 0 := by
  have hb : b.toNat = 0 ↔ b = 0 := (BitVec.toNat_eq (y := 0)).symm
  rw [contrib_eq, ← hb]
  split <;> omega

theorem weightedFrom_add_two (p : Nat) (data : List Byte) : weightedFrom (p + 2) data = weightedFrom p data := by
  induction data generalizing p with
  | nil => rfl
  | cons b bs ih => rw [weightedFrom, weightedFrom, contrib_add_two, Nat.add_right_comm, ih]

theorem weightedFrom_append (p : Nat) (xs ys : List Byte) :
    weightedFrom p (xs ++ ys) = weightedFrom p xs + weightedFrom (p + xs.length) ys := by
  induction xs generalizing p with
  | nil => simp [weightedFrom]
  | cons x xs ih => simp only [List.cons_append, weightedFrom, ih, List.length_cons, Nat.add_assoc, Nat.add_comm 1]

theorem weightedSum_append (xs ys : List Byte) :
    weightedSum (xs ++ ys) = weightedSum xs + weightedFrom xs.length ys := by
  rw [weightedSum, weightedFrom_append, Nat.zero_add, weightedSum]

theorem weightedFrom_eq_zero {p : Nat} {data : List Byte} : weightedFrom p data = 0 ↔ ∀ b ∈ data, b = 0 := by
  induction data generalizing p with
  | nil => simp [weightedFrom]
  | cons b bs ih => rw [weightedFrom, Nat.add_eq_zero_iff, contrib_eq_zero, ih, List.forall_mem_cons]

/-- The weighted sum of an even number of bytes, two at a time. -/
theorem weightedFrom_eq_sum_pairs {n : Nat} (p : Nat) {data : List Byte} (h : data.length = 2 * n) :
    weightedFrom p data =
      ∑ k ∈ Finset.range n, (contrib (data.getD (2 * k) 0) p + contrib (data.getD (2 * k + 1) 0) (p + 1)) := by
  induction n generalizing data with
  | zero => rw [List.eq_nil_of_length_eq_zero h]; rfl
  | succ n ih =>
    match data, h with
    | x :: y :: rest, h =>
      have hrest : rest.length = 2 * n := by simp only [List.length_cons] at h; omega
      rw [Finset.sum_range_succ', weightedFrom, weightedFrom, Nat.add_assoc p 1 1, weightedFrom_add_two, ih hrest]
      simp only [Nat.mul_succ, List.getD_cons_succ, List.getD_cons_zero, Nat.mul_zero]
      omega

/-! ## The reference -/

/-- One guarded fold is the full fold of what the loop can hold (R66). -/
theorem guardedFold_eq_fold16 {x : Nat} (h : x ≤ 0x1FFFE) : guardedFold x = fold16 x := by
  unfold guardedFold
  split
  next => exact eq_fold16 (fold1_stage4_le h) (fold1_mod x) fold1_eq_zero
  next hx => exact (fold16_of_le (Nat.le_of_not_lt hx)).symm

/-- A step of the loop adds a word into the folded sum. -/
theorem guardedFold_fold16_add {x y : Nat} (h : y ≤ 0xFFFF) : guardedFold (fold16 x + y) = fold16 (x + y) := by
  have := fold16_le x
  rw [guardedFold_eq_fold16 (by omega), fold16_fold16_add]

theorem beword_toNat_eq_contrib (h l : Byte) : (beword h l).toNat = contrib h 0 + contrib l 1 := by
  simp [beword_toNat, contrib_eq]

/-- Folding after every word is folding once (R68). -/
theorem scalarLoop_fold16 (x : Nat) (data : List Byte) : scalarLoop (fold16 x) data = fold16 (x + weightedSum data) := by
  match data with
  | [] => rfl
  | [b] =>
    have hb : contrib b 0 ≤ 0xFFFF := by have := b.isLt; rw [contrib_eq]; simp; omega
    exact guardedFold_fold16_add hb
  | h :: l :: rest =>
    have hword : (beword h l).toNat ≤ 0xFFFF := Nat.le_of_lt_succ (beword h l).isLt
    have hsum : weightedSum (h :: l :: rest) = (beword h l).toNat + weightedSum rest := by
      rw [beword_toNat_eq_contrib, Nat.add_assoc, weightedSum, weightedSum, weightedFrom, weightedFrom,
        weightedFrom_add_two 0]
    rw [scalarLoop, guardedFold_fold16_add hword, scalarLoop_fold16, hsum, Nat.add_assoc]

/-- The reference is the complement of the folded weighted sum (R68). -/
theorem checksumRef_eq (data : List Byte) : checksumRef data = cpl16 (BitVec.ofNat 16 (fold16 (weightedSum data))) := by
  have hloop : scalarLoop 0 data = fold16 (weightedSum data) := by
    simpa [fold16_of_le] using scalarLoop_fold16 0 data
  have hguard : guardedFold (fold16 (weightedSum data)) = fold16 (weightedSum data) :=
    guardedFold_fold16_add (y := 0) (by decide)
  rw [checksumRef, hloop, hguard]

end Sys2Proof.Machine
end

section
/-! PROOF. A state represents a stream when the fold of `A` is the fold of the weighted sum, PAR is the length's parity and a
valid RES fits (R87). Every command, every sequence of commands and every step keeps this, and so RES after FINAL depends on the
stream alone (R37, R86). -/

namespace Sys2Proof.Machine

variable {i : Instr} {is : List Instr} {stream : List Byte} {s t : State}

theorem fold16_eq_iff {x y : Nat} : fold16 x = fold16 y ↔ x % 0xFFFF = y % 0xFFFF ∧ (x = 0 ↔ y = 0) := by
  refine ⟨fun h => ⟨?_, ?_⟩, fun ⟨hmod, hzero⟩ => fold16_congr hmod hzero⟩
  · rw [← fold16_mod x, h, fold16_mod]
  · rw [← fold16_eq_zero, h, fold16_eq_zero]

theorem fold16_add_congr {x y : Nat} (h : fold16 x = fold16 y) (z : Nat) : fold16 (x + z) = fold16 (y + z) := by
  rw [← fold16_fold16_add x, h, fold16_fold16_add]

/-- Items 1, 2 and 4 of R87 are about the fold of `A`. -/
theorem represents_iff : Represents stream s ↔
    fold16 s.total = fold16 (weightedSum stream) ∧ s.par = decide (stream.length % 2 = 1) ∧ s.resultFits := by
  have hzero : (weightedSum stream = 0) = ∀ b ∈ stream, b = 0 := propext weightedFrom_eq_zero
  constructor
  · intro h
    have hfold := fold16_eq_iff.mpr ⟨h.congr, hzero ▸ h.zero⟩
    exact ⟨hfold, h.parity, fun hv => by rw [h.result hv, checksumRef_eq, hfold]⟩
  · rintro ⟨hfold, hpar, hfits⟩
    obtain ⟨hcongr, hz⟩ := fold16_eq_iff.mp hfold
    exact ⟨hcongr, hzero ▸ hz, hpar, fun hv => by rw [hfits hv, checksumRef_eq, hfold]⟩

/-! ## What the absorbing commands add to `A` -/

/-- Adding into the lanes adds to the fold of their sum (R64, R75). -/
theorem fold16_add_laneSum_addLanes (x : Nat) (w u : Lanes) :
    fold16 (x + laneSum (addLanes w u)) = fold16 (x + laneSum w + laneSum u) := by
  have hadd : laneSum w + laneSum u = ∑ k : Fin 16, (w[k].toNat + u[k].toNat) := by
    rw [laneSum_eq_sum, laneSum_eq_sum, Finset.sum_add_distrib]
  have hlane (k : Fin 16) : (addLanes w u)[k] = ocadd w[k] u[k] := getElem_addLanes w u k k.isLt
  have hmodLane (k : Fin 16) : (addLanes w u)[k].toNat ≡ w[k].toNat + u[k].toNat [MOD 0xFFFF] := by
    rw [hlane]
    exact ocadd16_mod w[k] u[k]
  have hmod : laneSum (addLanes w u) ≡ laneSum w + laneSum u [MOD 0xFFFF] := by
    rw [hadd, laneSum_eq_sum]
    exact Nat.ModEq.sum fun k _ => hmodLane k
  have hzero : laneSum (addLanes w u) = 0 ↔ laneSum w + laneSum u = 0 := by
    simp only [laneSum_eq_sum, Finset.sum_eq_zero_iff, hlane, ocadd_toNat_eq_zero, Nat.add_eq_zero_iff, forall_and]
  rw [Nat.add_assoc]
  exact fold16_congr (hmod.add_left x) (by omega)

/-- A lane's word is the contribution of its two bytes, at either parity (R75). -/
theorem laneWord_toNat (p : Nat) (bytes : Chunk) (k : Fin 16) :
    (laneWord (decide (p % 2 = 1)) bytes k).toNat = contrib bytes[2 * k.val] p + contrib bytes[2 * k.val + 1] (p + 1) := by
  obtain hp | hp := Nat.mod_two_eq_zero_or_one p
  · have hp' : (p + 1) % 2 = 1 := by omega
    simp [laneWord, beword_toNat, contrib_eq, hp, hp']
  · have hp' : (p + 1) % 2 = 0 := by omega
    simp [laneWord, beword_toNat, contrib_eq, hp, hp', Nat.add_comm]

theorem laneSum_laneWords (p : Nat) (bytes : Chunk) :
    laneSum (laneWords (decide (p % 2 = 1)) bytes) = weightedFrom p bytes.toList := by
  have hget (j : Nat) (hj : j < 32) : bytes.toList.getD j 0 = bytes[j] := by
    rw [List.getD_eq_getElem _ _ (by simpa using hj), Vector.getElem_toList]
  rw [weightedFrom_eq_sum_pairs (n := 16) p (by simp), Finset.sum_range, laneSum_eq_sum]
  refine Finset.sum_congr rfl fun k _ => ?_
  rw [hget _ (by omega), hget _ (by omega), ← laneWord_toNat]
  exact congrArg _ (getElem_laneWords _ _ _ k.isLt)

/-- A BYTE's value is the byte's contribution (R76). -/
theorem byteValue_toNat_eq_contrib (p : Nat) (b : Byte) : (byteValue (decide (p % 2 = 1)) b).toNat = contrib b p := by
  obtain hp | hp := Nat.mod_two_eq_zero_or_one p <;> simp [byteValue_toNat, contrib_eq, hp]

theorem fold16_ocadd_add (a b : Word64) (x : Nat) : fold16 ((ocadd a b).toNat + x) = fold16 (a.toNat + x + b.toNat) := by
  have hmod := ocadd64_mod a b
  have hzero := ocadd_toNat_eq_zero (a := a) (b := b)
  exact fold16_congr (by omega) (by omega)

theorem fold16_total_of_chunk {bytes : Chunk} (hs : Represents stream s) (h : exec (.chunk bytes) s = .next t) :
    fold16 t.total = fold16 (weightedSum (stream ++ bytes.toList)) := by
  obtain ⟨hfold, hpar, -⟩ := represents_iff.mp hs
  have hwords := laneSum_laneWords stream.length bytes
  cases h
  simp only [total_eq, State.sacc_setResValid, State.sacc_setWacc, State.wacc_setResValid, State.wacc_setWacc]
  rw [fold16_add_laneSum_addLanes, hpar, hwords, ← total_eq, fold16_add_congr hfold, weightedSum_append]

theorem fold16_total_of_byte {b : Byte} (hs : Represents stream s) (h : exec (.byte b) s = .next t) :
    fold16 t.total = fold16 (weightedSum (stream ++ [b])) := by
  obtain ⟨hfold, hpar, -⟩ := represents_iff.mp hs
  have hvalue := byteValue_toNat_eq_contrib stream.length b
  cases h
  simp only [total_eq, State.sacc_setResValid, State.sacc_setPar, State.sacc_setSacc, State.wacc_setResValid,
    State.wacc_setPar, State.wacc_setSacc]
  rw [fold16_ocadd_add, hpar, hvalue, ← total_eq, fold16_add_congr hfold, weightedSum_append, weightedFrom,
    weightedFrom, Nat.add_zero]

/-! ## Commands keep the representation -/

/-- A state with every accumulator 0, PAR = 0 and no valid RES represents the empty stream. -/
theorem represents_nil (hsacc : s.sacc = 0) (hwacc : s.wacc = zeroLanes) (hpar : s.par = false)
    (hvalid : s.resValid = false) : Represents [] s := by
  refine represents_iff.mpr ⟨?_, hpar, resultFits_of_resValid_false hvalid⟩
  rw [total_eq, hsacc, hwacc, laneSum_zeroLanes]
  rfl

theorem represents_of_clr (h : exec .clr s = .next t) : Represents [] t := by
  cases h
  exact represents_nil rfl rfl rfl rfl

theorem fold16_total_after (hs : Represents stream s) (h : exec i s = .next t) :
    fold16 t.total = fold16 (weightedSum (streamAfter i stream)) := by
  obtain ⟨hfold, -, -⟩ := represents_iff.mp hs
  cases i with
  | clr => exact (represents_iff.mp (represents_of_clr h)).1
  | chunk _ => exact fold16_total_of_chunk hs h
  | byte _ => exact fold16_total_of_byte hs h
  | reduce => exact (fold16_total_of_reduce h).trans hfold
  | fold => exact (fold16_total_of_fold h).trans hfold
  | final => exact (fold16_total_of_final h).trans hfold
  | nop | reserved7 | reservedHigh _ => cases h; exact hfold

/-- PAR toggles with a BYTE and keeps with a CHUNK, whose length is even (R20). -/
theorem par_after (hs : s.par = decide (stream.length % 2 = 1)) (h : exec i s = .next t) :
    t.par = decide ((streamAfter i stream).length % 2 = 1) := by
  cases i with
  | clr => cases h; rfl
  | chunk bytes =>
    have hlen : (stream ++ bytes.toList).length % 2 = stream.length % 2 := by
      rw [List.length_append, Vector.length_toList]; omega
    rw [exec_par_of_not_written h rfl, hs, streamAfter, hlen]
  | byte b =>
    cases h
    show (!s.par) = decide ((stream ++ [b]).length % 2 = 1)
    rw [hs, List.length_append, List.length_singleton, ← decide_not, decide_eq_decide]
    omega
  | _ => exact (exec_par_of_not_written h rfl).trans hs

theorem exec_keeps_represents (hs : Represents stream s) (h : exec i s = .next t) :
    Represents (streamAfter i stream) t := by
  obtain ⟨-, hpar, hfits⟩ := represents_iff.mp hs
  exact represents_iff.mpr ⟨fold16_total_after hs h, par_after hpar h, exec_keeps_resultFits hfits h⟩

theorem execAll_keeps_represents (is : List Instr) (hs : Represents stream s) :
    ∃ t, execAll is s = .next t ∧ Represents (streamAfterAll is stream) t := by
  induction is generalizing stream s with
  | nil => exact ⟨s, rfl, hs⟩
  | cons i is ih =>
    obtain ⟨r, hr⟩ := exec_total i s
    rw [execAll_cons_of_next hr]
    exact ih (exec_keeps_represents hs hr)

theorem streamAfterStep_of_due {w : CmdWord} (h : s.due = some w) (stream : List Byte) :
    streamAfterStep s stream = streamAfter (decode w) stream := by
  rw [streamAfterStep, h]

theorem streamAfterStep_of_not_due (h : s.due = none) (stream : List Byte) :
    streamAfterStep s stream = if s.pins.rst then [] else stream := by
  rw [streamAfterStep, h]

/-- The representation is about the six elements alone. -/
theorem represents_of_elements_eq (hs : Represents stream s) (he : t.elements = s.elements) : Represents stream t := by
  simp only [State.elements, Elements.mk.injEq] at he
  obtain ⟨hsacc, hwacc, hpar, hres, hvalid, -⟩ := he
  have htotal : t.total = s.total := by rw [total_eq, total_eq, hsacc, hwacc]
  exact ⟨htotal ▸ hs.congr, htotal ▸ hs.zero, hpar ▸ hs.parity, by rw [hvalid, hres]; exact hs.result⟩

/-- Settles O47: a due command keeps the representation as every command does, a reset edge leads to the empty stream, and any
other edge holds the six elements. -/
theorem stepsKeepTheStreamInvariant : Obligations.StepsKeepTheStreamInvariant := by
  unfold Obligations.StepsKeepTheStreamInvariant
  intro stream s t hs hstep
  obtain ⟨w, hd, h⟩ | ⟨hd, hr, rfl⟩ | ⟨hd, hr, rfl⟩ := step_cases hstep
  · rw [streamAfterStep_of_due hd]
    exact exec_keeps_represents (represents_of_elements_eq hs (State.elements_retire s)) h
  · rw [streamAfterStep_of_not_due hd, if_pos hr]
    exact represents_nil rfl rfl rfl rfl
  · rw [streamAfterStep_of_not_due hd, if_neg (by simp [hr])]
    exact represents_of_elements_eq hs (State.elements_runEdge s)

/-! ## Sequences of commands between CLR and FINAL -/

/-- FINAL latches the reference of the stream (R83, R88). -/
theorem exec_final_of_represents (hs : Represents stream s) :
    ∃ t, exec .final s = .next t ∧ t.res = checksumRef stream ∧ t.resValid = true := by
  obtain ⟨t, ht⟩ := exec_total .final s
  have hvalid : t.resValid = true := exec_resValid ht
  exact ⟨t, ht, (exec_keeps_represents hs ht).result hvalid, hvalid⟩

theorem execAll_final_of_represents (is : List Instr) (hs : Represents stream s) :
    ∃ t, execAll (is ++ [.final]) s = .next t ∧ t.res = checksumRef (streamAfterAll is stream) ∧ t.resValid = true := by
  obtain ⟨r, hr, hrep⟩ := execAll_keeps_represents is hs
  obtain ⟨t, ht, hres⟩ := exec_final_of_represents hrep
  exact ⟨t, by rw [execAll_append_of_next hr, execAll_cons_of_next ht, execAll_nil], hres⟩

/-- From a CLR in any state, RES after FINAL is the reference of the stream (R88). -/
theorem execAll_clr_final (is : List Instr) (s : State) :
    ∃ t, execAll (.clr :: (is ++ [.final])) s = .next t ∧ t.res = checksumRef (streamAfterAll is []) ∧
      t.resValid = true := by
  rw [execAll_cons_of_next (exec_clr s)]
  exact execAll_final_of_represents is (represents_of_clr (exec_clr s))

theorem same_res_of_same_stream {js : List Instr} (s s' : State) (h : streamAfterAll is [] = streamAfterAll js []) :
    ∃ t t', execAll (.clr :: (is ++ [.final])) s = .next t ∧ execAll (.clr :: (js ++ [.final])) s' = .next t' ∧
      t.res = t'.res := by
  obtain ⟨t, ht, hres, -⟩ := execAll_clr_final is s
  obtain ⟨t', ht', hres', -⟩ := execAll_clr_final js s'
  exact ⟨t, t', ht, ht', by rw [hres, hres', h]⟩

theorem streamAfterAll_bytes (data stream : List Byte) :
    streamAfterAll (data.map Instr.byte) stream = stream ++ data := by
  induction data generalizing stream with
  | nil => simp [streamAfterAll]
  | cons b bs ih => simp [streamAfterAll, streamAfter, ih]

theorem toList_takeChunk {rest : List Byte} (h : 32 ≤ rest.length) : (takeChunk rest).toList = rest.take 32 := by
  refine List.ext_getElem (by simpa using h) fun j hj _ => ?_
  have hj' : j < rest.length := by rw [Vector.length_toList] at hj; omega
  simp [takeChunk, hj']

/-- The loops of R85 absorb all their bytes in order. -/
theorem streamAfterAll_hostLoops {n : Nat} {rest : List Byte} (h : 32 * n ≤ rest.length) (stream : List Byte) :
    streamAfterAll (hostLoops n rest) stream = stream ++ rest := by
  induction n generalizing rest stream with
  | zero => exact streamAfterAll_bytes rest stream
  | succ n ih =>
    rw [hostLoops, streamAfterAll, ih (by rw [List.length_drop]; omega), streamAfter, toList_takeChunk (by omega),
      List.append_assoc, List.take_append_drop]

/-- Settles O52: both sequences give the reference of their stream, and the two shapes of R85 and R86 absorb the same data. -/
theorem anySplitOfAStreamGivesTheSameResult : Obligations.AnySplitOfAStreamGivesTheSameResult := by
  unfold Obligations.AnySplitOfAStreamGivesTheSameResult
  refine ⟨fun _ _ s s' hstream => same_res_of_same_stream s s' hstream, fun data s => same_res_of_same_stream s s ?_⟩
  rw [streamAfterAll_bytes, streamAfterAll_hostLoops (Nat.mul_div_le _ _)]

end Sys2Proof.Machine
end

section
/-! PROOF. What the host drives after a command's acceptance reaches neither the command in flight nor its effect (R45). -/

namespace Sys2Proof.Machine

variable {s : State}

theorem step_of_rst_false (hd : s.due = none) (hr : s.pins.rst = false) : step s = .next s.runEdge := by
  simp [step_of_not_due hd, State.clockEdge, hr]

/-- Whatever the host drives at an edge without reset, the elements are held and the commands in flight stay in front, each one
edge nearer to its effect. -/
theorem step_of_rst_false_edges {host : List Edge} (hd : s.due = none)
    (hr : ({ s with edges := host } : State).pins.rst = false) :
    ∃ t, step { s with edges := host } = .next t ∧ t.elements = s.elements ∧
      t.inFlight.take s.inFlight.length = s.inFlight.map Pending.age := by
  have hd' : ({ s with edges := host } : State).due = none := hd
  exact ⟨_, step_of_rst_false hd' hr, rfl, List.take_left' (List.length_map _)⟩

theorem map_word_age (ps : List Pending) : (ps.map Pending.age).map Pending.word = ps.map Pending.word := by
  rw [List.map_map]
  rfl

/-- A due command has the same effect whatever the host drives from then on. -/
theorem step_of_due_edges (hd : s.due ≠ none) (later : List Edge) :
    ∃ t u, step s = .next t ∧ step { s with edges := later } = .next u ∧ u.elements = t.elements ∧
      u.inFlight = t.inFlight := by
  obtain ⟨w, hw⟩ := Option.ne_none_iff_exists'.mp hd
  have hw' : ({ s with edges := later } : State).due = some w := hw
  obtain ⟨t, ht⟩ := exec_total (decode w) s.retire
  obtain ⟨u, hu, he⟩ := exec_congr_elements (s' := ({ s with edges := later } : State).retire) ht rfl
  exact ⟨t, u, by rw [step_of_due hw, ht], by rw [step_of_due hw', hu], he,
    (exec_frame hu).1.trans (exec_frame ht).1.symm⟩

/-- Settles O7: with no command due both hosts see an edge that ages the same queue, and a due command reads no edge. -/
theorem inputsAfterAcceptanceDoNotMatter : Obligations.InputsAfterAcceptanceDoNotMatter := by
  unfold Obligations.InputsAfterAcceptanceDoNotMatter
  refine ⟨fun s first second hd hr hr' => ?_, fun s later hd => step_of_due_edges hd later⟩
  obtain ⟨t, ht, helems, hqueue⟩ := step_of_rst_false_edges hd hr
  obtain ⟨u, hu, helems', hqueue'⟩ := step_of_rst_false_edges hd hr'
  exact ⟨t, u, ht, hu, helems'.trans helems.symm, hqueue'.trans hqueue.symm, by rw [hqueue, map_word_age]⟩

end Sys2Proof.Machine
end

section
/-! PROOF. Decoding and encoding are inverse to each other up to the ignored bits (spec/30_encoding.md R47 to R52, R54). -/

namespace Sys2Proof

variable {w w' : CmdWord} {i : Instr}

/-! ## The data field and its bytes -/

/-- The 32 bytes of a data field are all of it (R35). -/
theorem eq_of_dataByte_eq {d d' : BitVec 256} (h : ∀ j, j < 32 → dataByte d j = dataByte d' j) : d = d' := by
  ext k hk
  have hbit := congrArg (·.getLsbD (k % 8)) (h (k / 8) (by omega))
  simpa [dataByte, Nat.mod_lt, Nat.div_add_mod, ← BitVec.getLsbD_eq_getElem] using hbit

theorem dataBytes_packBytes (bytes : Chunk) : dataBytes (packBytes bytes) = bytes := by
  ext j hj : 1
  rw [getElem_dataBytes, dataByte_packBytes]

theorem packBytes_dataBytes (d : BitVec 256) : packBytes (dataBytes d) = d :=
  eq_of_dataByte_eq fun j hj => by rw [dataByte_packBytes _ j hj, getElem_dataBytes]

theorem dataByte_zero_zeroExtend (b : Byte) : dataByte (b.zeroExtend 256) 0 = b := by
  apply BitVec.eq_of_toNat_eq
  simp only [dataByte, BitVec.extractLsb'_toNat, BitVec.toNat_setWidth]
  omega

/-- Keeping the low byte of a data field is masking it with the used bits of BYTE (R49). -/
theorem zeroExtend_dataByte_zero (d : BitVec 256) : (dataByte d 0).zeroExtend 256 = d &&& 0xFF := by
  apply BitVec.eq_of_toNat_eq
  have hmask : d.toNat &&& (0xFF : BitVec 256).toNat = d.toNat % 256 := Nat.and_two_pow_sub_one_eq_mod d.toNat 8
  simp only [dataByte, BitVec.extractLsb'_toNat, BitVec.toNat_setWidth, BitVec.toNat_and, hmask]
  omega

/-! ## The opcode map for the commands without an operand (R48) -/

theorem decode_of_op_nop (h : CmdWord.op w = 0x0) : decode w = .nop := by rw [decode, h]; rfl

theorem decode_of_op_clr (h : CmdWord.op w = 0x1) : decode w = .clr := by rw [decode, h]; rfl

theorem decode_of_op_reduce (h : CmdWord.op w = 0x4) : decode w = .reduce := by rw [decode, h]; rfl

theorem decode_of_op_fold (h : CmdWord.op w = 0x5) : decode w = .fold := by rw [decode, h]; rfl

theorem decode_of_op_final (h : CmdWord.op w = 0x6) : decode w = .final := by rw [decode, h]; rfl

theorem decode_of_op_reserved7 (h : CmdWord.op w = 0x7) : decode w = .reserved7 := by rw [decode, h]; rfl

/-! ## Both directions -/

@[simp] theorem op_encode (i : Instr) : CmdWord.op (encode i) = i.opcode := op_mk _ _

@[simp] theorem data_encode (i : Instr) : CmdWord.data (encode i) = encodeData i := data_mk _ _

/-- Settles O15: the opcode selects the constructor again, and the data field holds the operand of CHUNK, BYTE and the reserved
opcodes whole. -/
theorem decodeOfEncodeIsTheCommand : Obligations.DecodeOfEncodeIsTheCommand := by
  unfold Obligations.DecodeOfEncodeIsTheCommand
  intro i hwf
  have hop := op_encode i
  cases i with
  | nop => exact decode_of_op_nop hop
  | clr => exact decode_of_op_clr hop
  | chunk bytes => rw [decode_of_op_chunk hop, data_encode, encodeData, dataBytes_packBytes]
  | byte b => rw [decode_of_op_byte hop, data_encode, encodeData, dataByte_zero_zeroExtend]
  | reduce => exact decode_of_op_reduce hop
  | fold => exact decode_of_op_fold hop
  | final => exact decode_of_op_final hop
  | reserved7 => exact decode_of_op_reserved7 hop
  | reservedHigh op =>
    have hhigh : 0x8#4 ≤ op := of_decide_eq_true hwf
    rw [decode_of_op_high (by rwa [hop]), hop, Instr.opcode]

/-- Settles O13: row by row of the opcode map. -/
theorem opcodeMapDecodesEveryWord : Obligations.OpcodeMapDecodesEveryWord := by
  unfold Obligations.OpcodeMapDecodesEveryWord
  exact fun w => ⟨decode_of_op_nop, decode_of_op_clr, fun h => ⟨_, decode_of_op_chunk h⟩, fun h => ⟨_, decode_of_op_byte h⟩,
    decode_of_op_reduce, decode_of_op_fold, decode_of_op_final, decode_of_op_reserved7, decode_of_op_high⟩

/-- Only CHUNK and BYTE have an operand in the data field (R49). -/
theorem encodeData_eq_zero (hchunk : i.opcode ≠ 0x2) (hbyte : i.opcode ≠ 0x3) : encodeData i = 0 := by
  cases i with
  | chunk bytes => exact absurd rfl hchunk
  | byte b => exact absurd rfl hbyte
  | _ => rfl

/-- The operand a word decodes to is its used bits (R49). -/
theorem encodeData_decode (w : CmdWord) : encodeData (decode w) = CmdWord.data w &&& usedMask (CmdWord.op w) := by
  by_cases hchunk : CmdWord.op w = 0x2
  · rw [decode_of_op_chunk hchunk, encodeData, packBytes_dataBytes, usedMask, if_pos hchunk, BitVec.and_allOnes]
  · by_cases hbyte : CmdWord.op w = 0x3
    · rw [decode_of_op_byte hbyte, encodeData, zeroExtend_dataByte_zero, usedMask, if_neg hchunk, if_pos hbyte]
    · rw [encodeData_eq_zero (by rwa [decode_opcode]) (by rwa [decode_opcode]), usedMask, if_neg hchunk, if_neg hbyte]
      exact BitVec.and_zero.symm

theorem encode_decode (w : CmdWord) : encode (decode w) = canonicalWord w := by
  rw [encode, decode_opcode, encodeData_decode, canonicalWord]

/-- Settles O16: decoding keeps the opcode and the used bits, and the encoder fills the rest with 0. -/
theorem encodeOfDecodeClearsIgnoredBits : Obligations.EncodeOfDecodeClearsIgnoredBits := by
  unfold Obligations.EncodeOfDecodeClearsIgnoredBits
  exact fun w => ⟨decode_wellFormed w, encode_decode w⟩

/-! ## The ignored bits -/

/-- A word with its ignored bits cleared is the same command (R50). -/
theorem decode_canonicalWord (w : CmdWord) : decode (canonicalWord w) = decode w := by
  rw [← encode_decode]
  exact decodeOfEncodeIsTheCommand (decode w) (decode_wellFormed w)

/-- Words with the same opcode and the same used bits differ in ignored bits only (R49). -/
theorem canonicalWord_congr (hop : CmdWord.op w = CmdWord.op w')
    (hchunk : CmdWord.op w = 0x2 → CmdWord.data w = CmdWord.data w')
    (hbyte : CmdWord.op w = 0x3 → dataByte (CmdWord.data w) 0 = dataByte (CmdWord.data w') 0) :
    canonicalWord w = canonicalWord w' := by
  have hused : CmdWord.data w &&& usedMask (CmdWord.op w) = CmdWord.data w' &&& usedMask (CmdWord.op w) := by
    unfold usedMask
    split_ifs with h2 h3
    · rw [hchunk h2]
    · rw [← zeroExtend_dataByte_zero, hbyte h3, zeroExtend_dataByte_zero]
    · exact BitVec.and_zero.trans BitVec.and_zero.symm
  rw [canonicalWord, canonicalWord, ← hop, hused]

/-- Settles O14: two words that agree in the opcode and the used bits have the same word with its ignored bits cleared. -/
theorem ignoredBitsHaveNoEffect : Obligations.IgnoredBitsHaveNoEffect := by
  unfold Obligations.IgnoredBitsHaveNoEffect
  intro w w' hop hchunk hbyte
  have hlow (v : CmdWord) : dataByte (CmdWord.data v) 0 = v.extractLsb' 0 8 := dataByte_of_word v 0 (by decide)
  have hcanonical : canonicalWord w = canonicalWord w' :=
    canonicalWord_congr hop hchunk fun h => by rw [hlow, hlow, hbyte h]
  have hdecode : decode w = decode w' := by rw [← decode_canonicalWord, hcanonical, decode_canonicalWord]
  exact ⟨hdecode, fun s => by rw [hdecode]⟩

end Sys2Proof
end

section
/-! PROOF. The words the assembler makes of operands, of WORD, TAIL and CSUM, and of the examples (spec/30_encoding.md R54 to R57). -/

namespace Sys2Proof.Machine

/-! ## Digit pairs as bytes (R55) -/

theorem hexDigit_lt {c : Char} {d : Nat} (h : hexDigit c = some d) : d < 16 := by
  simp only [hexDigit] at h
  split_ifs at h <;> cases h <;> omega

/-- The byte at the front of a text of digit pairs is its first pair. -/
theorem hexBytes_cons_cons {a b : Char} {x y : Nat} {rest : List Char} {bytes : List Byte} (hx : hexDigit a = some x)
    (hy : hexDigit b = some y) (hrest : hexBytes rest = some bytes) :
    hexBytes (a :: b :: rest) = some (BitVec.ofNat 8 (16 * x + y) :: bytes) := by
  simp only [hexBytes, hx, hy, hrest]

/-- Byte `j` of a text of digit pairs is its pair `j`. -/
theorem hexBytes_pairs {n : Nat} {digits : List Char} (hlen : digits.length = 2 * n)
    (hdigits : ∀ c ∈ digits, (hexDigit c).isSome = true) :
    ∃ bytes, hexBytes digits = some bytes ∧ ∀ j, j < n → ∃ x y, hexDigit (digits.getD (2 * j) '0') = some x ∧
      hexDigit (digits.getD (2 * j + 1) '0') = some y ∧ (bytes.getD j 0).toNat = 16 * x + y := by
  induction n generalizing digits with
  | zero =>
    obtain rfl := List.eq_nil_of_length_eq_zero hlen
    exact ⟨[], rfl, fun j hj => absurd hj (Nat.not_lt_zero j)⟩
  | succ n ih =>
    obtain ⟨a, b, rest, rfl⟩ : ∃ a b rest, digits = a :: b :: rest :=
      match digits, hlen with
      | a :: b :: rest, _ => ⟨a, b, rest, rfl⟩
    simp only [List.forall_mem_cons, Option.isSome_iff_exists] at hdigits
    obtain ⟨⟨x, hx⟩, ⟨y, hy⟩, hdigits⟩ := hdigits
    obtain ⟨bytes, hbytes, hpairs⟩ := ih (by simpa [Nat.mul_succ] using hlen) (by simpa [Option.isSome_iff_exists])
    refine ⟨_, hexBytes_cons_cons hx hy hbytes, fun j hj => ?_⟩
    cases j with
    | zero =>
      have hxlt := hexDigit_lt hx
      have hylt := hexDigit_lt hy
      exact ⟨x, y, hx, hy, Nat.mod_eq_of_lt (by omega)⟩
    | succ j => exact hpairs j (by omega)

/-! ## The operands of BYTE -/

theorem byteCommands_eq_some {ns : List Nat} (h : ∀ n ∈ ns, n ≤ 255) :
    byteCommands ns = some (ns.map fun n => .byte (BitVec.ofNat 8 n)) := by
  induction ns with
  | nil => rfl
  | cons n ns ih =>
    obtain ⟨hn, hns⟩ := List.forall_mem_cons.mp h
    simp only [byteCommands, inRange, if_pos hn, ih hns, List.map_cons]

theorem words_byte {n : Nat} (h : n ≤ 255) : Asm.words (.byte n) = some [encode (.byte (BitVec.ofNat 8 n))] := by
  simp [Asm.words, byteCommands_eq_some (ns := [n]) (by simpa using h)]

theorem words_byte_eq_none {n : Nat} (h : 255 < n) : Asm.words (.byte n) = none := by
  simp only [Asm.words, byteCommands, inRange, if_neg (Nat.not_le.mpr h), Option.map_none]

/-! ## One word for a CHUNK, a BYTE or a RAW -/

theorem words_raw {op data : Nat} (hop : op ≤ 15) (hdata : data < 2 ^ 256) :
    Asm.words (.raw op data) = some [CmdWord.mk (BitVec.ofNat 4 op) (BitVec.ofNat 256 data)] := if_pos ⟨hop, hdata⟩

/-- Byte `j` of the word of a CHUNK is the literal's byte `j`. -/
theorem byte_of_encode_chunk (bytes : List Byte) {j : Nat} (hj : j < 32) :
    (encode (.chunk (takeChunk bytes))).extractLsb' (8 * j) 8 = bytes.getD j 0 := by
  rw [← dataByte_of_word _ j hj, data_encode, encodeData, dataByte_packBytes _ j hj]
  exact Vector.getElem_ofFn hj

/-- Settles O55: `hexBytes_pairs` for CHUNK, the range check for BYTE, and for RAW the two fields as given. -/
theorem assemblerEncodesOperands : Obligations.AssemblerEncodesOperands := by
  unfold Obligations.AssemblerEncodesOperands
  refine ⟨fun digits hlen hdigits => ?_, fun digits hlen => if_neg hlen, fun n hn => ?_, fun n => words_byte_eq_none,
    fun op data hop hdata => ?_⟩
  · obtain ⟨bytes, hbytes, hpairs⟩ := hexBytes_pairs (n := 32) hlen hdigits
    refine ⟨encode (.chunk (takeChunk bytes)), by rw [Asm.words, if_pos hlen, hbytes, Option.map_some], op_encode _,
      fun j hj => ?_⟩
    rw [byte_of_encode_chunk bytes hj]
    exact hpairs j hj
  · refine ⟨_, words_byte hn, op_encode _, ?_⟩
    rw [data_encode, encodeData, BitVec.toNat_setWidth, BitVec.toNat_ofNat]
    omega
  · refine ⟨_, words_raw hop hdata, ?_, ?_⟩
    · rw [op_mk, BitVec.toNat_ofNat, Nat.mod_eq_of_lt (by omega)]
    · rw [data_mk, BitVec.toNat_ofNat, Nat.mod_eq_of_lt hdata]

/-! ## The expansions of WORD, TAIL and CSUM (R56) -/

theorem words_word {n : Nat} (h : n ≤ 0xFFFF) : Asm.words (.word n) =
    some [encode (.byte (BitVec.ofNat 8 (n / 256))), encode (.byte (BitVec.ofNat 8 (n % 256)))] := by
  have hbytes : ∀ m ∈ [n / 256, n % 256], m ≤ 255 := by
    simp only [List.forall_mem_cons, List.not_mem_nil, false_implies, implies_true, and_true]
    omega
  simp [Asm.words, inRange, h, byteCommands_eq_some hbytes]

theorem words_tail (bytes : List Byte) :
    Asm.words (.tail (bytes.map BitVec.toNat)) = some (bytes.map fun b => encode (.byte b)) := by
  have hbytes : ∀ n ∈ bytes.map BitVec.toNat, n ≤ 255 := by
    simp only [List.forall_mem_map]
    exact fun b _ => Nat.le_of_lt_succ b.isLt
  simp [Asm.words, byteCommands_eq_some hbytes, Function.comp_def]

/-- Settles O56: the two digits of a 16-bit number to base 256 are its high and its low byte. -/
theorem pseudoInstructionsExpand : Obligations.PseudoInstructionsExpand := by
  unfold Obligations.PseudoInstructionsExpand
  refine ⟨fun n hn => ?_, words_tail, fun data => rfl⟩
  have hhigh : BitVec.ofNat 8 (n / 256) = (BitVec.ofNat 16 n).extractLsb' 8 8 := by
    apply BitVec.eq_of_toNat_eq
    simp only [BitVec.extractLsb'_toNat, BitVec.toNat_ofNat]
    omega
  have hlow : BitVec.ofNat 8 (n % 256) = (BitVec.ofNat 16 n).extractLsb' 0 8 := by
    apply BitVec.eq_of_toNat_eq
    simp
  rw [words_word hn, hhigh, hlow]

/-! ## The examples of R57 -/

/-- Settles O17: the words are written out once, as encodings, and decode by the round trip. -/
theorem exampleWordsDecode : Obligations.ExampleWordsDecode := by
  unfold Obligations.ExampleWordsDecode
  have hbyte : encode (.byte 0x05) = 0x30000000000000000000000000000000000000000000000000000000000000005 := by
    simp [encode, CmdWord.mk, Instr.opcode, encodeData]
  have hraw : encode (.reservedHigh 0x9) = 0x90000000000000000000000000000000000000000000000000000000000000000 := by
    simp [encode, CmdWord.mk, Instr.opcode, encodeData]
  have hpack : packBytes (Vector.ofFn fun j => BitVec.ofNat 8 j.val) =
      0x1f1e1d1c1b1a191817161514131211100f0e0d0c0b0a09080706050403020100 := by decide
  have hchunk : encode (.chunk (Vector.ofFn fun j => BitVec.ofNat 8 j.val)) =
      0x21f1e1d1c1b1a191817161514131211100f0e0d0c0b0a09080706050403020100 := by
    simp [encode, CmdWord.mk, Instr.opcode, encodeData, hpack]
  refine ⟨?_, ?_, hchunk, by decide, by decide, ?_, ?_, ?_⟩
  · rw [← hbyte]
    exact words_byte (by decide)
  · rw [← hraw]
    exact words_raw (by decide) (by decide)
  · rw [← hbyte]
    exact decodeOfEncodeIsTheCommand _ rfl
  · rw [← hchunk]
    exact decodeOfEncodeIsTheCommand _ rfl
  · rw [← hraw]
    exact decodeOfEncodeIsTheCommand _ rfl

end Sys2Proof.Machine
end

section
/-! PROOF. The closed form of a sum modulo m, with m standing for a positive multiple of m (spec/40_reference.md R62, R64). The
one's-complement add of width W is the closed form at m = 2^W - 1 and `FOLD16` the one at m = 0xFFFF, so the laws of both follow
from those of the closed form. -/

namespace Sys2Proof.Machine

/-! ## The closed form -/

/-- The value in `[0, m]` that is congruent to `x` modulo `m` and is 0 only for `x = 0` (R62, R64). -/
def closedForm (m x : Nat) : Nat := if x = 0 then 0 else 1 + (x - 1) % m

variable {m x y : Nat}

theorem closedForm_of_pos (h : 0 < x) : closedForm m x = 1 + (x - 1) % m := if_neg (Nat.ne_of_gt h)

theorem closedForm_eq_zero : closedForm m x = 0 ↔ x = 0 := by
  unfold closedForm
  split <;> omega

theorem closedForm_mod (m x : Nat) : closedForm m x % m = x % m := by
  obtain rfl | hx := Nat.eq_zero_or_pos x
  · rfl
  · rw [closedForm_of_pos hx, Nat.add_mod_mod, Nat.add_sub_cancel' hx]

theorem closedForm_of_le (h : x ≤ m) : closedForm m x = x := by
  obtain rfl | hx := Nat.eq_zero_or_pos x
  · rfl
  · rw [closedForm_of_pos hx, Nat.mod_eq_of_lt (by omega), Nat.add_sub_cancel' hx]

/-- The closed form depends on the class modulo `m` and on being 0 alone. -/
theorem closedForm_congr (hmod : x % m = y % m) (hzero : x = 0 ↔ y = 0) : closedForm m x = closedForm m y := by
  obtain rfl | hx := Nat.eq_zero_or_pos x
  · rw [hzero.mp rfl]
  · have hy : 0 < y := Nat.pos_of_ne_zero fun h => Nat.ne_of_gt hx (hzero.mpr h)
    have hpred : x - 1 ≡ y - 1 [MOD m] := by
      refine Nat.ModEq.add_right_cancel' 1 ?_
      rwa [Nat.sub_add_cancel hx, Nat.sub_add_cancel hy]
    rw [closedForm_of_pos hx, closedForm_of_pos hy, hpred]

theorem eq_closedForm (hle : y ≤ m) (hmod : y % m = x % m) (hzero : y = 0 ↔ x = 0) : y = closedForm m x :=
  (closedForm_of_le hle).symm.trans (closedForm_congr hmod hzero)

theorem closedForm_closedForm_add (m x y : Nat) : closedForm m (closedForm m x + y) = closedForm m (x + y) :=
  closedForm_congr (Nat.ModEq.add_right y (closedForm_mod m x)) (by simp only [Nat.add_eq_zero_iff, closedForm_eq_zero])

/-! ## The one's-complement add -/

section OnesComplementAdd

variable {w : Nat}

theorem toNat_le_two_pow_sub_one (a : BitVec w) : a.toNat ≤ 2 ^ w - 1 := Nat.le_sub_one_of_lt a.isLt

theorem ocadd_toNat_eq_closedForm (a b : BitVec w) : (ocadd a b).toNat = closedForm (2 ^ w - 1) (a.toNat + b.toNat) :=
  eq_closedForm (toNat_le_two_pow_sub_one _) (ocadd_toNat_mod dvd_rfl a b)
    (ocadd_toNat_eq_zero.trans Nat.add_eq_zero_iff.symm)

theorem ocadd_eq_zero {a b : BitVec w} : ocadd a b = 0 ↔ a = 0 ∧ b = 0 := by
  simpa only [BitVec.toNat_eq, BitVec.ofNat_eq_ofNat, BitVec.toNat_zero] using ocadd_toNat_eq_zero (a := a) (b := b)

theorem ocadd_comm (a b : BitVec w) : ocadd a b = ocadd b a := by
  apply BitVec.eq_of_toNat_eq
  rw [ocadd_toNat_eq_closedForm, ocadd_toNat_eq_closedForm, Nat.add_comm]

theorem ocadd_zero (a : BitVec w) : ocadd a 0 = a := by
  apply BitVec.eq_of_toNat_eq
  rw [ocadd_toNat_eq_closedForm]
  exact closedForm_of_le (toNat_le_two_pow_sub_one a)

/-- A chain of adds gives the closed form of the exact sum (R64). -/
theorem foldl_ocadd_toNat (a : BitVec w) (xs : List (BitVec w)) :
    (xs.foldl ocadd a).toNat = closedForm (2 ^ w - 1) (a.toNat + (xs.map BitVec.toNat).sum) := by
  induction xs generalizing a with
  | nil => exact (closedForm_of_le (toNat_le_two_pow_sub_one a)).symm
  | cons x xs ih =>
    rw [List.foldl_cons, ih, ocadd_toNat_eq_closedForm, closedForm_closedForm_add, List.map_cons, List.sum_cons,
      Nat.add_assoc]

theorem foldl_ocadd_zero_toNat (xs : List (BitVec w)) :
    (xs.foldl ocadd 0).toNat = closedForm (2 ^ w - 1) (xs.map BitVec.toNat).sum := by
  rw [foldl_ocadd_toNat, BitVec.ofNat_eq_ofNat, BitVec.toNat_zero, Nat.zero_add]

theorem ocadd_foldl_ocadd_zero (a : BitVec w) (xs : List (BitVec w)) :
    ocadd a (xs.foldl ocadd 0) = xs.foldl ocadd a := by
  apply BitVec.eq_of_toNat_eq
  rw [ocadd_toNat_eq_closedForm, foldl_ocadd_zero_toNat, foldl_ocadd_toNat, Nat.add_comm, closedForm_closedForm_add,
    Nat.add_comm]

theorem ocadd_assoc (a b c : BitVec w) : ocadd (ocadd a b) c = ocadd a (ocadd b c) := by
  apply BitVec.eq_of_toNat_eq
  rw [ocadd_toNat_eq_closedForm, ocadd_toNat_eq_closedForm a b, closedForm_closedForm_add, ocadd_toNat_eq_closedForm,
    ocadd_toNat_eq_closedForm b c, Nat.add_comm a.toNat (closedForm _ _), closedForm_closedForm_add]
  congr 1
  omega

theorem foldl_ocadd_perm {xs ys : List (BitVec w)} (h : xs.Perm ys) : xs.foldl ocadd 0 = ys.foldl ocadd 0 := by
  apply BitVec.eq_of_toNat_eq
  rw [foldl_ocadd_zero_toNat, foldl_ocadd_zero_toNat, (h.map BitVec.toNat).sum_eq]

end OnesComplementAdd

/-- Settles O34: the add and every chain of adds are the closed form of the exact sum, at every width; the two widths matter only
for 0xFFFF dividing 2^W - 1. -/
theorem onesComplementAddLaws : Obligations.OnesComplementAddLaws := by
  unfold Obligations.OnesComplementAddLaws
  intro W hW
  have hdvd : 0xFFFF ∣ 2 ^ W - 1 := by
    obtain rfl | rfl := hW
    · decide
    · decide
  refine ⟨hdvd, fun a b c => ?_, foldl_ocadd_zero_toNat, fun xs ys => foldl_ocadd_perm, fun xs ys => ?_⟩
  · exact ⟨ocadd_toNat_mod dvd_rfl a b, ocadd_toNat_mod hdvd a b, ocadd_eq_zero, ocadd_toNat_eq_closedForm a b,
      ocadd_comm a b, ocadd_assoc a b c, ocadd_zero a⟩
  · rw [List.foldl_append, ocadd_foldl_ocadd_zero]

/-! ## FOLD16 -/

theorem fold16_fold1 (x : Nat) : fold16 (fold1 x) = fold16 x := fold16_congr (fold1_mod x) fold1_eq_zero

theorem fold16_eq_closedForm (x : Nat) : fold16 x = closedForm 0xFFFF x :=
  eq_closedForm (fold16_le x) (fold16_mod x) fold16_eq_zero

/-- A positive multiple of 0xFFFF folds to 0xFFFF, and nothing else does (R62). -/
theorem fold16_eq_ffff : fold16 x = 0xFFFF ↔ 0 < x ∧ x % 0xFFFF = 0 := by
  have hle := fold16_le x
  have hmod := fold16_mod x
  have hzero := fold16_eq_zero (x := x)
  omega

/-- Settles O35: a fold keeps what determines `FOLD16`, the class modulo 0xFFFF and being 0, and lowers a value above 0xFFFF. -/
theorem fullFoldRepeatsTheFold : Obligations.FullFoldRepeatsTheFold := by
  unfold Obligations.FullFoldRepeatsTheFold
  exact fun x => ⟨fold16_of_le, fun h => ⟨fold1_lt h, (fold16_fold1 x).symm⟩, fold16_le x,
    fun h => fold1_stage3_le (by omega), by decide⟩

/-- Settles O36: `FOLD16` is the closed form at 0xFFFF. -/
theorem foldingLaws : Obligations.FoldingLaws := by
  unfold Obligations.FoldingLaws
  exact fun x => ⟨fold1_mod x, fold1_eq_zero, fold16_le x, fold16_mod x, fold16_eq_closedForm x, fold16_of_le (fold16_le x)⟩

end Sys2Proof.Machine
end

section
/-! PROOF. The weighted sum as a sum over positions and over words, and the reference checksum as the complement of the folded
sum, with its edge cases, closed form and concatenation law (spec/40_reference.md R59, R67 to R70). -/

namespace Sys2Proof.Machine

/-! ## The weighted sum (R59) -/

theorem contrib_of_even {p : Nat} (b : Byte) (h : p % 2 = 0) : contrib b p = b.toNat * 0x100 := by
  rw [contrib_eq, if_pos h]

theorem contrib_of_odd {p : Nat} (b : Byte) (h : p % 2 = 1) : contrib b p = b.toNat := by
  rw [contrib_eq, if_neg (by omega)]

theorem weightedFrom_eq_sum_contrib (p : Nat) (data : List Byte) :
    weightedFrom p data = ((List.range data.length).map fun k => contrib (data.getD k 0) (p + k)).sum := by
  induction data generalizing p with
  | nil => rfl
  | cons b bs ih =>
    simp only [weightedFrom, ih, List.length_cons, List.range_succ_eq_map, List.map_cons, List.map_map, List.sum_cons,
      Function.comp_def, List.getD_cons_zero, List.getD_cons_succ, Nat.add_zero, Nat.succ_eq_add_one, Nat.add_assoc,
      Nat.add_comm 1]

theorem weightedSum_singleton (b : Byte) : weightedSum [b] = b.toNat <<< 8 := rfl

theorem weightedSum_cons_cons (h l : Byte) (rest : List Byte) :
    weightedSum (h :: l :: rest) = (beword h l).toNat + weightedSum rest := by
  rw [beword_toNat_eq_contrib, Nat.add_assoc, weightedSum, weightedSum, weightedFrom, weightedFrom, weightedFrom_add_two 0]

/-- The sum of the whole words of a byte sequence. -/
def wordSum (data : List Byte) : Nat :=
  ((List.range (data.length / 2)).map fun i => (beword (data.getD (2 * i) 0) (data.getD (2 * i + 1) 0)).toNat).sum

/-- An odd length's last byte, as a high byte. -/
def tailWord (data : List Byte) : Nat :=
  if data.length % 2 = 1 then (data.getD (data.length - 1) 0).toNat <<< 8 else 0

theorem wordSum_singleton (b : Byte) : wordSum [b] = 0 := by simp [wordSum]

theorem tailWord_singleton (b : Byte) : tailWord [b] = b.toNat <<< 8 := rfl

theorem wordSum_cons_cons (h l : Byte) (rest : List Byte) :
    wordSum (h :: l :: rest) = (beword h l).toNat + wordSum rest := by
  have hlen : (h :: l :: rest).length / 2 = rest.length / 2 + 1 := by simp only [List.length_cons]; omega
  simp only [wordSum, hlen, List.range_succ_eq_map, List.map_cons, List.map_map, List.sum_cons, Function.comp_def,
    Nat.succ_eq_add_one, Nat.mul_add, Nat.mul_zero, Nat.mul_one, List.getD_cons_zero, List.getD_cons_succ]

theorem tailWord_cons_cons (h l : Byte) (rest : List Byte) : tailWord (h :: l :: rest) = tailWord rest := by
  unfold tailWord
  simp only [List.length_cons, Nat.add_assoc, Nat.reduceAdd, Nat.add_mod_right]
  split
  next hodd =>
    obtain ⟨n, hn⟩ : ∃ n, rest.length = n + 1 := ⟨rest.length - 1, by omega⟩
    simp only [hn, Nat.add_sub_cancel, Nat.add_succ_sub_one, List.getD_cons_succ]
  next => rfl

/-- `T(data)` is what the Scalar Engine's steps 2 and 3 add up, without the folds (R59, R66). -/
theorem weightedSum_eq_words : (data : List Byte) → weightedSum data = wordSum data + tailWord data
  | [] => rfl
  | [b] => by rw [weightedSum_singleton, wordSum_singleton, tailWord_singleton, Nat.zero_add]
  | h :: l :: rest => by
    rw [weightedSum_cons_cons, wordSum_cons_cons, tailWord_cons_cons, weightedSum_eq_words rest, Nat.add_assoc]

/-- Settles O40: by position the sum is its own recursion, and by words it goes two bytes at a time. -/
theorem weightedSumIsTheSumOfWords : Obligations.WeightedSumIsTheSumOfWords := by
  unfold Obligations.WeightedSumIsTheSumOfWords
  refine ⟨fun b p => ⟨contrib_of_even b, contrib_of_odd b⟩, fun data => ⟨?_, weightedSum_eq_words data⟩⟩
  simpa only [weightedSum, Nat.zero_add] using weightedFrom_eq_sum_contrib 0 data

/-! ## The reference as the complement of the folded sum (R67 to R69) -/

theorem foldedSum_le (data : List Byte) : foldedSum data ≤ 0xFFFF := fold16_le _

theorem foldedSum_singleton (b : Byte) : foldedSum [b] = b.toNat <<< 8 := by
  have hb := b.isLt
  rw [foldedSum, weightedSum_singleton]
  exact fold16_of_le (by rw [Nat.shiftLeft_eq]; omega)

/-- Settles O42: the Scalar Engine's loop keeps the fold of what it has added so far. -/
theorem batchedFoldingGivesTheReference : Obligations.BatchedFoldingGivesTheReference := by
  unfold Obligations.BatchedFoldingGivesTheReference
  exact checksumRef_eq

theorem checksumRef_eq_foldedSum (data : List Byte) : checksumRef data = cpl16 (BitVec.ofNat 16 (foldedSum data)) :=
  checksumRef_eq data

theorem checksumRef_toNat (data : List Byte) : (checksumRef data).toNat = 0xFFFF - foldedSum data := by
  rw [checksumRef_eq_foldedSum, cpl16_toNat, BitVec.toNat_ofNat, Nat.mod_eq_of_lt (Nat.lt_succ_of_le (foldedSum_le data))]

theorem cpl16_checksumRef_toNat (data : List Byte) : (cpl16 (checksumRef data)).toNat = foldedSum data := by
  rw [cpl16_toNat, checksumRef_toNat, Nat.sub_sub_self (foldedSum_le data)]

/-- Settles O41: the folded sum of one byte is the byte as a high byte. -/
theorem referenceEdgeCases : Obligations.ReferenceEdgeCases := by
  unfold Obligations.ReferenceEdgeCases
  refine ⟨by decide, fun b => ?_, by decide⟩
  have hword : BitVec.ofNat 16 (b.toNat <<< 8) = b.zeroExtend 16 <<< 8 := by
    apply BitVec.eq_of_toNat_eq
    have hb := b.isLt
    simp only [BitVec.toNat_ofNat, BitVec.toNat_shiftLeft, BitVec.truncate_eq_setWidth, BitVec.toNat_setWidth]
    rw [Nat.mod_eq_of_lt (show b.toNat < 2 ^ 16 by omega)]
  rw [checksumRef_eq_foldedSum, foldedSum_singleton, hword]

/-- Settles O43: the complement is 0xFFFF where the folded sum is 0, and 0 where it is 0xFFFF. -/
theorem referenceClosedForm : Obligations.ReferenceClosedForm := by
  unfold Obligations.ReferenceClosedForm
  intro data
  have hle := foldedSum_le data
  have htoNat := checksumRef_toNat data
  refine ⟨?_, ?_, ?_⟩
  · rw [htoNat, foldedSum, fold16_eq_closedForm]
    exact apply_ite (0xFFFF - ·) _ _ _
  · have hzero : foldedSum data = 0 ↔ ∀ b ∈ data, b = 0 := fold16_eq_zero.trans weightedFrom_eq_zero
    rw [← hzero, BitVec.toNat_eq, htoNat, show (0xFFFF : Word16).toNat = 0xFFFF from rfl]
    omega
  · rw [← fold16_eq_ffff, ← foldedSum, BitVec.toNat_eq, htoNat, show (0x0000 : Word16).toNat = 0 from rfl]
    omega

/-! ## The concatenation law (R70) -/

theorem swap16_eq {x : Nat} (h : x ≤ 0xFFFF) : swap16 x = x % 256 * 256 + x / 256 := by
  have hor : x <<< 8 ||| x >>> 8 = 2 ^ 8 * x + x / 256 := by
    rw [Nat.shiftLeft_eq, Nat.shiftRight_eq_div_pow, Nat.mul_comm, Nat.two_pow_add_eq_or_of_lt (by omega)]
  have hand : swap16 x = (2 ^ 8 * x + x / 256) % 2 ^ 16 := by
    rw [swap16, hor]
    exact Nat.and_two_pow_sub_one_eq_mod _ 16
  omega

theorem swap16_mod {x : Nat} (h : x ≤ 0xFFFF) : swap16 x % 0xFFFF = 2 ^ 8 * x % 0xFFFF := by
  rw [swap16_eq h]
  omega

theorem swap16_eq_zero {x : Nat} (h : x ≤ 0xFFFF) : swap16 x = 0 ↔ x = 0 := by
  rw [swap16_eq h]
  omega

/-- The next position weighs a byte by 2^8 more, modulo 0xFFFF: a low byte's 1 is 2^8 times a high byte's 2^8. -/
theorem contrib_succ_mod (b : Byte) (p : Nat) : contrib b (p + 1) % 0xFFFF = 2 ^ 8 * contrib b p % 0xFFFF := by
  obtain hp | hp := Nat.mod_two_eq_zero_or_one p
  · rw [contrib_of_even b hp, contrib_of_odd b (by omega)]
    omega
  · rw [contrib_of_odd b hp, contrib_of_even b (by omega)]
    omega

theorem weightedFrom_succ_mod (p : Nat) (data : List Byte) :
    weightedFrom (p + 1) data % 0xFFFF = 2 ^ 8 * weightedFrom p data % 0xFFFF := by
  induction data generalizing p with
  | nil => rfl
  | cons b bs ih =>
    rw [weightedFrom, weightedFrom, Nat.mul_add]
    exact Nat.ModEq.add (contrib_succ_mod b p) (ih (p + 1))

theorem weightedFrom_of_even {p : Nat} (h : p % 2 = 0) (data : List Byte) : weightedFrom p data = weightedFrom 0 data := by
  obtain ⟨n, rfl⟩ := Nat.dvd_of_mod_eq_zero h
  induction n with
  | zero => rfl
  | succ n ih => rw [Nat.mul_succ, weightedFrom_add_two, ih (Nat.mul_mod_right 2 n)]

/-- At an odd position the folded sum stands with its bytes swapped. -/
theorem fold16_swap16_foldedSum {p : Nat} (h : p % 2 = 1) (data : List Byte) :
    fold16 (swap16 (foldedSum data)) = fold16 (weightedFrom p data) := by
  have hle := foldedSum_le data
  have hpos : weightedFrom (p - 1 + 1) data = weightedFrom p data := by rw [Nat.sub_add_cancel (by omega)]
  refine fold16_congr ?_ ?_
  · calc swap16 (foldedSum data) % 0xFFFF
        = 2 ^ 8 * foldedSum data % 0xFFFF := swap16_mod hle
      _ = 2 ^ 8 * weightedFrom 0 data % 0xFFFF := Nat.ModEq.mul_left _ (fold16_mod _)
      _ = weightedFrom p data % 0xFFFF := by
        rw [← weightedFrom_of_even (p := p - 1) (by omega), ← weightedFrom_succ_mod, hpos]
  · rw [swap16_eq_zero hle, foldedSum, fold16_eq_zero, weightedSum, weightedFrom_eq_zero, weightedFrom_eq_zero]

theorem foldedSum_append (p q : List Byte) : foldedSum (p ++ q) = fold16 (foldedSum p + weightedFrom p.length q) := by
  rw [foldedSum, weightedSum_append, foldedSum, fold16_fold16_add]

/-- What is added to a folded sum may be folded first. -/
theorem fold16_add_congr_right {x y : Nat} (h : fold16 x = fold16 y) (z : Nat) : fold16 (z + x) = fold16 (z + y) := by
  rw [Nat.add_comm z, Nat.add_comm z, fold16_add_congr h]

theorem foldedSum_append_of_even {p : List Byte} (h : p.length % 2 = 0) (q : List Byte) :
    foldedSum (p ++ q) = fold16 (foldedSum p + foldedSum q) := by
  rw [foldedSum_append, weightedFrom_of_even h, ← weightedSum]
  exact fold16_add_congr_right (fold16_of_le (foldedSum_le q)).symm _

theorem foldedSum_append_of_odd {p : List Byte} (h : p.length % 2 = 1) (q : List Byte) :
    foldedSum (p ++ q) = fold16 (foldedSum p + swap16 (foldedSum q)) := by
  rw [foldedSum_append]
  exact fold16_add_congr_right (fold16_swap16_foldedSum h q).symm _

/-- Settles O44: the folds of the two parts add up, the second part being weighed 2^8 times as much after an odd length. -/
theorem concatenationLaw : Obligations.ConcatenationLaw := by
  unfold Obligations.ConcatenationLaw
  refine ⟨fun p q h => foldedSum_append_of_even h q, fun p q h => foldedSum_append_of_odd h q, by decide,
    fun x => swap16_mod, fun p b h => ⟨?_, ?_⟩⟩
  · rw [cpl16_checksumRef_toNat, cpl16_checksumRef_toNat, ← foldedSum_append_of_even h, checksumRef_eq_foldedSum]
  · rw [cpl16_checksumRef_toNat, foldedSum_singleton]

end Sys2Proof.Machine
end

section
/-! PROOF. The absorbing commands NOP, CLR, CHUNK and BYTE (spec/41_absorb.md R73 to R76): what each does to every element, and
the sequences its rule names. -/

namespace Sys2Proof.Machine

variable {is js : List Instr} {s t : State}

/-! ## NOP (R73) -/

theorem execAll_nops_append (n : Nat) (is : List Instr) (s : State) :
    execAll (List.replicate n .nop ++ is) s = execAll is s := by
  induction n with
  | zero => rfl
  | succ n ih => rw [List.replicate_succ, List.cons_append, execAll_cons_of_next (exec_nop s), ih]

/-- Commands with the same outcome from every state have it behind any commands. -/
theorem execAll_append_congr (h : ∀ s, execAll is s = execAll js s) (before : List Instr) (s : State) :
    execAll (before ++ is) s = execAll (before ++ js) s := by
  induction before generalizing s with
  | nil => exact h s
  | cons i before ih =>
    obtain ⟨t, ht⟩ := exec_total i s
    rw [List.cons_append, List.cons_append, execAll_cons_of_next ht, execAll_cons_of_next ht, ih]

/-- Settles O18: NOPs in front of `after` do nothing from the state that `before` leads to. -/
theorem nopChangesNothing : Obligations.NopChangesNothing := by
  unfold Obligations.NopChangesNothing
  refine ⟨fun _ => decode_of_op_nop, exec_nop, fun before after n s => ?_⟩
  rw [List.append_assoc]
  exact execAll_append_congr (execAll_nops_append n after) before s

/-! ## CLR (R74) -/

theorem exec_clr_wacc (h : exec .clr s = .next t) (k : Nat) (hk : k < 16) : t.wacc[k] = 0 := by
  cases h
  exact getElem_zeroLanes k hk

/-- Settles O19: CLR leads to a state of the empty stream, whose reference FINAL latches. -/
theorem clrStartsANewStream : Obligations.ClrStartsANewStream := by
  unfold Obligations.ClrStartsANewStream
  refine ⟨fun _ => decode_of_op_clr, fun s => ?_, fun s => ?_⟩
  · exact ⟨_, exec_clr s, rfl, exec_clr_wacc (exec_clr s), rfl, rfl, rfl, rfl, represents_of_clr (exec_clr s),
      exec_frame (exec_clr s)⟩
  · obtain ⟨hempty, -⟩ := referenceEdgeCases
    obtain ⟨t, ht, hres, hvalid⟩ := execAll_clr_final [] s
    exact ⟨t, ht, hres.trans hempty, hvalid⟩

/-! ## CHUNK (R75) -/

theorem laneWord_eq_beword (par : Bool) (bytes : Chunk) (k : Fin 16) :
    laneWord par bytes k =
      if par = false then beword bytes[2 * k.val] bytes[2 * k.val + 1] else beword bytes[2 * k.val + 1] bytes[2 * k.val] := by
  cases par <;> rfl

theorem laneWord_of_zero_bytes (par : Bool) {bytes : Chunk} {k : Fin 16} (hfirst : bytes[2 * k.val] = 0)
    (hsecond : bytes[2 * k.val + 1] = 0) : laneWord par bytes k = 0 := by
  rw [laneWord_eq_beword, hfirst, hsecond, ite_self]
  rfl

theorem exec_chunk_wacc {bytes : Chunk} (h : exec (.chunk bytes) s = .next t) (k : Nat) (hk : k < 16) :
    t.wacc[k] = ocadd s.wacc[k] (laneWord s.par bytes ⟨k, hk⟩) := by
  cases h
  simp

theorem exec_chunk_sacc {bytes : Chunk} (h : exec (.chunk bytes) s = .next t) : t.sacc = s.sacc := by
  cases h
  rfl

theorem dataBytes_of_word (w : CmdWord) (j : Nat) (hj : j < 32) :
    (dataBytes (CmdWord.data w))[j] = w.extractLsb' (8 * j) 8 := by
  rw [getElem_dataBytes, dataByte_of_word w j hj]

/-- Settles O20: the lanes one by one; an end-around-carry sum is 0 only when both its terms are. -/
theorem chunkAddsAWordIntoEachLane : Obligations.ChunkAddsAWordIntoEachLane := by
  unfold Obligations.ChunkAddsAWordIntoEachLane
  refine ⟨fun w hop => ⟨_, decode_of_op_chunk hop, dataBytes_of_word w⟩, fun bytes s => ?_⟩
  obtain ⟨t, ht⟩ := exec_total (.chunk bytes) s
  have hlane := exec_chunk_wacc ht
  obtain ⟨hqueue, hstall, hedges, htick⟩ := exec_frame ht
  refine ⟨t, ht, fun k hk => ?_, fun k hk hfull hzero => ?_, fun k hk hfirst hsecond => ?_, exec_resValid ht,
    exec_chunk_sacc ht, exec_par_of_not_written ht rfl, exec_res_of_not_written ht rfl, exec_err_of_not_written ht rfl,
    hqueue, hstall, hedges, htick, by decide, by decide, by decide⟩
  · rw [hlane k hk, laneWord_eq_beword]
  · rw [hlane k hk, ocadd_eq_zero, hfull] at hzero
    exact absurd hzero.1 (by decide)
  · rw [hlane k hk, laneWord_of_zero_bytes s.par hfirst hsecond, ocadd_zero]

/-! ## BYTE (R76) -/

theorem byteValue_zero (par : Bool) : byteValue par 0 = 0 := by
  cases par <;> rfl

/-- A high byte's value and a low byte's add up to their big-endian word without a carry (R58, R63). -/
theorem ocadd_byteValue_byteValue (h l : Byte) :
    ocadd (byteValue false h) (byteValue true l) = (beword h l).zeroExtend 64 := by
  apply BitVec.eq_of_toNat_eq
  have hh := h.isLt
  have hl := l.isLt
  rw [ocadd_toNat, byteValue_toNat, byteValue_toNat, BitVec.toNat_setWidth, beword_toNat]
  simp only [Bool.false_eq_true, if_false, if_true]
  rw [if_neg (by omega), Nat.mod_eq_of_lt (by omega)]

theorem exec_byte_sacc {b : Byte} (h : exec (.byte b) s = .next t) : t.sacc = ocadd s.sacc (byteValue s.par b) := by
  cases h
  rfl

theorem exec_byte_wacc {b : Byte} (h : exec (.byte b) s = .next t) : t.wacc = s.wacc := by
  cases h
  rfl

theorem exec_byte_par {b : Byte} (h : exec (.byte b) s = .next t) : t.par = !s.par := by
  cases h
  rfl

/-- Two BYTEs from an even position absorb one big-endian word (R76). -/
theorem execAll_byte_byte (h l : Byte) (hpar : s.par = false) : ∃ t, execAll [.byte h, .byte l] s = .next t ∧
    t.sacc = ocadd s.sacc ((beword h l).zeroExtend 64) ∧ t.par = false := by
  obtain ⟨r, hr⟩ := exec_total (.byte h) s
  obtain ⟨t, ht⟩ := exec_total (.byte l) r
  have hodd : r.par = true := by rw [exec_byte_par hr, hpar, Bool.not_false]
  refine ⟨t, by rw [execAll_cons_of_next hr, execAll_cons_of_next ht, execAll_nil], ?_, ?_⟩
  · rw [exec_byte_sacc ht, exec_byte_sacc hr, hodd, hpar, ocadd_assoc, ocadd_byteValue_byteValue]
  · rw [exec_byte_par ht, hodd, Bool.not_true]

/-- Settles O21: one BYTE at each of the two parities; for two BYTEs the end-around-carry add is associative. -/
theorem byteAddsOneWeightedByte : Obligations.ByteAddsOneWeightedByte := by
  unfold Obligations.ByteAddsOneWeightedByte
  refine ⟨fun w hop => ?_, fun b s => ?_, fun h l s hpar => execAll_byte_byte h l hpar⟩
  · rw [decode_of_op_byte hop, dataByte_of_word w 0 (by decide)]
  · obtain ⟨t, ht⟩ := exec_total (.byte b) s
    have hsacc := exec_byte_sacc ht
    obtain ⟨hqueue, hstall, hedges, htick⟩ := exec_frame ht
    refine ⟨t, ht, fun heven => ?_, fun hodd => ?_, fun hzero => ?_, exec_byte_par ht, exec_resValid ht, fun k hk => ?_,
      exec_res_of_not_written ht rfl, exec_err_of_not_written ht rfl, hqueue, hstall, hedges, htick⟩
    · rw [hsacc, heven]; rfl
    · rw [hsacc, hodd]; rfl
    · rw [hsacc, hzero, byteValue_zero, ocadd_zero]
    · rw [exec_byte_wacc ht]

end Sys2Proof.Machine
end

section
/-! PROOF. The folding unit and the reduction tree of the finishing commands (spec/42_finish.md R77, R78, R80, R81). -/

namespace Sys2Proof.Machine

/-! ## The folding unit (R81) -/

/-- Settles O37: each stage's bound follows from the one before it, and the last is `FOLD16`'s. -/
theorem foldingUnitIsTheFullFold : Obligations.FoldingUnitIsTheFullFold := by
  unfold Obligations.FoldingUnitIsTheFullFold
  refine ⟨fun x => ?_, by decide, by decide, by decide, by decide⟩
  have hstage1 := fold1_stage1_le x.isLt
  have hstage2 := fold1_stage2_le hstage1
  have hstage3 := fold1_stage3_le hstage2
  exact ⟨foldUnit_toNat x, hstage1, hstage2, hstage3, fold1_stage4_le hstage3⟩

/-! ## The reduction tree (R77, R78) -/

/-- Each field is below 2^16, so the fields do not overlap. -/
theorem extractLsb'_reduceTree (w : Lanes) (j : Nat) (hj : j < 4) :
    (reduceTree w).extractLsb' (16 * j) 16 = treeField w j hj := by
  have h0 := (treeField w 0 (by decide)).isLt
  have h1 := (treeField w 1 (by decide)).isLt
  have h2 := (treeField w 2 (by decide)).isLt
  apply BitVec.eq_of_toNat_eq
  have h := (treeField w j hj).isLt
  rw [BitVec.extractLsb'_toNat, Nat.shiftRight_eq_div_pow, reduceTree_toNat_eq_treeFields]
  match j with
  | 0 | 1 | 2 | 3 => omega

/-- Settles O38: the tree's output is its four fields, one above the other. -/
theorem reductionTreeHalvesTwice : Obligations.ReductionTreeHalvesTwice := by
  unfold Obligations.ReductionTreeHalvesTwice
  exact extractLsb'_reduceTree

theorem laneSum_eq_zero {w : Lanes} : laneSum w = 0 ↔ ∀ k (_ : k < 16), w[k] = 0 := by
  simp only [laneSum_eq_sum, Finset.sum_eq_zero_iff, Finset.mem_univ, true_imp_iff, Fin.forall_iff, Fin.getElem_fin,
    BitVec.toNat_eq, BitVec.ofNat_eq_ofNat, BitVec.toNat_zero]

theorem reduceTree_eq_zero_iff_lanes {w : Lanes} : reduceTree w = 0 ↔ ∀ k (_ : k < 16), w[k] = 0 := by
  rw [← laneSum_eq_zero, ← reduceTree_eq_zero]
  exact BitVec.toNat_eq

theorem treeField_of_full {w : Lanes} (h : ∀ k (_ : k < 16), w[k] = 0xFFFF) (j : Nat) (hj : j < 4) :
    treeField w j hj = 0xFFFF := by
  rw [treeField, h j, h (j + 8), h (j + 4), h (j + 12)]
  decide

theorem reduceTree_of_full {w : Lanes} (h : ∀ k (_ : k < 16), w[k] = 0xFFFF) : reduceTree w = 0xFFFFFFFFFFFFFFFF := by
  apply BitVec.eq_of_toNat_eq
  simp only [reduceTree_toNat_eq_treeFields, treeField_of_full h]
  decide

/-- Settles O39: the four fields are the digits of the tree's output to the base 2^16. -/
theorem reductionTreeLaws : Obligations.ReductionTreeLaws := by
  unfold Obligations.ReductionTreeLaws
  refine fun w => ⟨⟨Vector.ofFn fun j => treeField w j j.isLt, fun j hj => Vector.getElem_ofFn hj, ?_⟩, reduceTree_mod w,
    reduceTree_eq_zero_iff_lanes, reduceTree_of_full⟩
  simp only [Vector.getElem_ofFn, reduceTree_toNat_eq_treeFields]
  omega

end Sys2Proof.Machine
end

section
/-! PROOF. The finishing commands REDUCE, FOLD and FINAL (spec/42_finish.md R79, R82, R83): what each does to every element, and
that each given twice acts as once. -/

namespace Sys2Proof.Machine

variable {i : Instr} {s t : State}

/-- A command that does nothing in the state it leads to acts twice as once. -/
theorem execAll_twice (h : ∀ {t}, exec i s = .next t → exec i t = .next t) : execAll [i, i] s = execAll [i] s := by
  obtain ⟨t, ht⟩ := exec_total i s
  rw [execAll_cons_of_next ht, execAll_cons_of_next ht, execAll_cons_of_next (h ht)]

/-! ## REDUCE (R79) -/

@[simp] theorem reduceTree_zeroLanes : reduceTree zeroLanes = 0 := reduceTree_eq_zero_iff_lanes.mpr getElem_zeroLanes

theorem exec_reduce_wacc (h : exec .reduce s = .next t) : t.wacc = zeroLanes := by
  cases h
  rfl

theorem exec_reduce_sacc (h : exec .reduce s = .next t) : t.sacc = ocadd s.sacc (reduceTree s.wacc) := by
  cases h
  rfl

theorem reducedSacc_of_zeroLanes (h : s.wacc = zeroLanes) : s.reducedSacc = s.sacc := by
  rw [State.reducedSacc, h, reduceTree_zeroLanes, ocadd_zero]

theorem exec_reduce_of_zeroLanes (h : s.wacc = zeroLanes) : exec .reduce s = .next s := by
  rw [exec_reduce, reducedSacc_of_zeroLanes h, ← h]
  rfl

theorem streamAfterAll_append (is js : List Instr) (stream : List Byte) :
    streamAfterAll (is ++ js) stream = streamAfterAll js (streamAfterAll is stream) := by
  induction is generalizing stream with
  | nil => rfl
  | cons i is ih => exact ih (streamAfter i stream)

/-- Settles O22: REDUCE leaves zero lanes, from which a second REDUCE moves nothing, and it keeps the stream, on which alone RES
after FINAL depends. -/
theorem reduceMovesTheLanesIntoSacc : Obligations.ReduceMovesTheLanesIntoSacc := by
  unfold Obligations.ReduceMovesTheLanesIntoSacc
  refine ⟨fun _ => decode_of_op_reduce, fun s => ?_,
    fun s => execAll_twice fun ht => exec_reduce_of_zeroLanes (exec_reduce_wacc ht), fun is js s => ?_⟩
  · obtain ⟨t, ht⟩ := exec_total .reduce s
    have hsacc := exec_reduce_sacc ht
    refine ⟨t, ht, hsacc, fun k hk => ?_, fun hzero => ?_, exec_par_of_not_written ht rfl, exec_res_of_not_written ht rfl,
      exec_resValid ht, exec_err_of_not_written ht rfl, exec_frame ht⟩
    · simp only [exec_reduce_wacc ht, getElem_zeroLanes]
    · rw [hsacc, reduceTree_eq_zero_iff_lanes.mpr hzero, ocadd_zero]
  · have hstream : streamAfterAll (is ++ js) [] = streamAfterAll (is ++ .reduce :: js) [] := by
      rw [streamAfterAll_append, streamAfterAll_append, streamAfterAll, streamAfter]
    obtain ⟨t, u, ht, hu, hres⟩ := same_res_of_same_stream s s hstream
    exact ⟨t, u, ht, hu, hres.symm⟩

/-! ## FOLD (R82) -/

theorem exec_fold_sacc (h : exec .fold s = .next t) : t.sacc = (foldUnit s.sacc).zeroExtend 64 := by
  cases h
  rfl

theorem exec_fold_sacc_toNat (h : exec .fold s = .next t) : t.sacc.toNat = fold16 s.sacc.toNat := by
  rw [exec_fold_sacc h, foldUnit_zeroExtend_toNat]

theorem exec_fold_wacc (h : exec .fold s = .next t) : t.wacc = s.wacc := by
  cases h
  rfl

theorem exec_fold_sacc_le (h : exec .fold s = .next t) : t.sacc.toNat ≤ 0xFFFF := by
  rw [exec_fold_sacc_toNat h]
  exact fold16_le _

theorem zeroExtend_foldUnit_of_le {x : Word64} (h : x.toNat ≤ 0xFFFF) : (foldUnit x).zeroExtend 64 = x := by
  apply BitVec.eq_of_toNat_eq
  rw [foldUnit_zeroExtend_toNat, fold16_of_le h]

theorem exec_fold_of_le (h : s.sacc.toNat ≤ 0xFFFF) : exec .fold s = .next s := by
  rw [exec_fold, zeroExtend_foldUnit_of_le h]
  rfl

/-- Settles O23: FOLD leaves a SACC of at most 0xFFFF, in which a FOLD does nothing. -/
theorem foldFoldsSaccInPlace : Obligations.FoldFoldsSaccInPlace := by
  unfold Obligations.FoldFoldsSaccInPlace
  refine ⟨fun _ => decode_of_op_fold, fun s => ?_, fun s => execAll_twice fun ht => exec_fold_of_le (exec_fold_sacc_le ht)⟩
  obtain ⟨t, ht⟩ := exec_total .fold s
  refine ⟨t, ht, exec_fold_sacc_toNat ht, fun hle => ?_, fun k hk => ?_, exec_par_of_not_written ht rfl,
    exec_res_of_not_written ht rfl, exec_resValid ht, exec_err_of_not_written ht rfl, exec_frame ht⟩
  · rw [exec_fold_sacc ht, zeroExtend_foldUnit_of_le hle]
  · rw [exec_fold_wacc ht]

/-! ## FINAL (R83) -/

theorem exec_final_sacc (h : exec .final s = .next t) : t.sacc = (foldUnit s.reducedSacc).zeroExtend 64 := by
  cases h
  rfl

theorem exec_final_wacc (h : exec .final s = .next t) : t.wacc = zeroLanes := by
  cases h
  rfl

theorem exec_final_res (h : exec .final s = .next t) : t.res = cpl16 (foldUnit s.reducedSacc) := by
  cases h
  rfl

theorem foldUnit_zeroExtend_foldUnit (x : Word64) : foldUnit ((foldUnit x).zeroExtend 64) = foldUnit x := by
  apply BitVec.eq_of_toNat_eq
  rw [foldUnit_toNat, foldUnit_zeroExtend_toNat, fold16_of_le (fold16_le _), foldUnit_toNat]

theorem exec_final_of_final (h : exec .final s = .next t) : exec .final t = .next t := by
  have hfold : foldUnit t.reducedSacc = foldUnit s.reducedSacc := by
    rw [reducedSacc_of_zeroLanes (exec_final_wacc h), exec_final_sacc h, foldUnit_zeroExtend_foldUnit]
  rw [exec_final, hfold]
  cases h
  rfl

/-- Settles O24: the folding unit is `FOLD16`, and after FINAL the lanes are zero and SACC is its own fold. -/
theorem finalLatchesTheChecksum : Obligations.FinalLatchesTheChecksum := by
  unfold Obligations.FinalLatchesTheChecksum
  refine ⟨fun _ => decode_of_op_final, fun s => ?_, fun s => execAll_twice exec_final_of_final⟩
  obtain ⟨t, ht⟩ := exec_total .final s
  refine ⟨t, ht, ?_, ?_, fun k hk => ?_, exec_resValid ht, exec_par_of_not_written ht rfl, exec_err_of_not_written ht rfl,
    exec_frame ht⟩
  · rw [exec_final_sacc ht, foldUnit_zeroExtend_toNat, State.reducedSacc]
  · rw [exec_final_res ht, cpl16_toNat, foldUnit_toNat, State.reducedSacc]
  · simp only [exec_final_wacc ht, getElem_zeroLanes]

end Sys2Proof.Machine
end

section
/-! PROOF. Streams from reset and from CLR (spec/43_host_sequence.md R87, R88, R90), and the canonical host sequence: its shape, the
stream it absorbs and the flags it keeps (R85, R89). -/

namespace Sys2Proof.Machine

variable {i : Instr} {is js : List Instr} {s t : State}

/-! ## From reset and from CLR (R87, R88) -/

theorem represents_reset : Represents [] State.reset := represents_nil rfl rfl rfl rfl

/-- Settles O46: from the reset state, which represents the empty stream, every sequence keeps the representation, as each of its
commands does. -/
theorem commandsKeepTheStreamInvariant : Obligations.CommandsKeepTheStreamInvariant := by
  unfold Obligations.CommandsKeepTheStreamInvariant
  refine ⟨fun is => execAll_keeps_represents is represents_reset, fun stream i s hs => ?_⟩
  obtain ⟨t, ht⟩ := exec_total i s
  exact ⟨t, ht, exec_keeps_represents hs ht⟩

/-- Settles O45: every accumulator is 0 at reset, PAR = 0 and RES is not valid. -/
theorem resetRepresentsTheEmptyStream : Obligations.ResetRepresentsTheEmptyStream := by
  unfold Obligations.ResetRepresentsTheEmptyStream
  exact ⟨represents_reset, resultFits_of_resValid_false rfl⟩

/-- Settles O49: after a CLR and at reset the state represents the empty stream, and FINAL latches the reference of what follows. -/
theorem finalGivesTheReferenceOfTheStream : Obligations.FinalGivesTheReferenceOfTheStream := by
  unfold Obligations.FinalGivesTheReferenceOfTheStream
  exact ⟨execAll_clr_final, fun is => execAll_final_of_represents is represents_reset⟩

/-! ## FINAL in the middle of a stream (R90) -/

/-- Every command but CLR absorbs behind the stream so far (R34). -/
theorem streamAfter_of_ne_clr (h : i ≠ .clr) (stream : List Byte) : streamAfter i stream = stream ++ streamAfter i [] := by
  cases i with
  | clr => exact absurd rfl h
  | chunk _ | byte _ => rfl
  | _ => exact (List.append_nil stream).symm

theorem streamAfterAll_of_no_clr (h : ∀ j ∈ js, j ≠ .clr) (stream : List Byte) :
    streamAfterAll js stream = stream ++ streamAfterAll js [] := by
  induction js generalizing stream with
  | nil => exact (List.append_nil stream).symm
  | cons j js ih =>
    obtain ⟨hj, hjs⟩ := List.forall_mem_cons.mp h
    rw [streamAfterAll, ih hjs, streamAfter_of_ne_clr hj, List.append_assoc, streamAfterAll, ← ih hjs]

theorem represents_of_execAll_clr (h : execAll (.clr :: is) s = .next t) : Represents (streamAfterAll is []) t := by
  obtain ⟨r, hr, hrt⟩ := execAll_cons_eq_next.mp h
  obtain ⟨t', ht', hrep⟩ := execAll_keeps_represents is (represents_of_clr hr)
  obtain rfl : t' = t := by simpa [ht'] using hrt
  exact hrep

/-- Settles O53: the state after the first FINAL represents the prefix, and without a CLR the rest is absorbed behind it. -/
theorem finalInTheMiddleGivesThePrefix : Obligations.FinalInTheMiddleGivesThePrefix := by
  unfold Obligations.FinalInTheMiddleGivesThePrefix
  intro is js s hjs
  obtain ⟨t, ht, hres, -⟩ := execAll_clr_final is s
  have hprefix : Represents (streamAfterAll is []) t := by
    have hrep := represents_of_execAll_clr ht
    rwa [streamAfterAll_append] at hrep
  obtain ⟨u, hu, hres', -⟩ := execAll_final_of_represents js hprefix
  exact ⟨t, u, ht, hres, hu, by rw [hres', streamAfterAll_of_no_clr hjs]⟩

/-! ## The shape of the canonical host sequence (R85) -/

theorem length_hostLoops {n : Nat} {rest : List Byte} (h : 32 * n ≤ rest.length) :
    (hostLoops n rest).length = n + (rest.length - 32 * n) := by
  induction n generalizing rest with
  | zero => simp [hostLoops]
  | succ n ih =>
    rw [hostLoops, List.length_cons, ih (by rw [List.length_drop]; omega), List.length_drop]
    omega

theorem length_hostSequence (data : List Byte) :
    (hostSequence data).length = 1 + data.length / 32 + data.length % 32 + 1 := by
  rw [hostSequence, List.length_cons, List.length_append, length_hostLoops (Nat.mul_div_le _ _), List.length_singleton]
  omega

theorem streamAfterAll_hostSequence (data stream : List Byte) : streamAfterAll (hostSequence data) stream = data := by
  rw [hostSequence, streamAfterAll, streamAfterAll_append, streamAfter, streamAfterAll_hostLoops (Nat.mul_div_le _ _)]
  rfl

/-- What every CHUNK and every BYTE satisfies, each command of the loops satisfies. -/
theorem forall_mem_hostLoops {p : Instr → Prop} (hchunk : ∀ bytes, p (.chunk bytes)) (hbyte : ∀ b, p (.byte b)) (n : Nat)
    (rest : List Byte) : ∀ i ∈ hostLoops n rest, p i := by
  induction n generalizing rest with
  | zero => exact List.forall_mem_map.mpr fun b _ => hbyte b
  | succ n ih => exact List.forall_mem_cons.mpr ⟨hchunk _, ih _⟩

theorem forall_mem_hostSequence {p : Instr → Prop} (hclr : p .clr) (hchunk : ∀ bytes, p (.chunk bytes))
    (hbyte : ∀ b, p (.byte b)) (hfinal : p .final) (data : List Byte) : ∀ i ∈ hostSequence data, p i :=
  List.forall_mem_cons.mpr ⟨hclr, List.forall_mem_append.mpr
    ⟨forall_mem_hostLoops hchunk hbyte _ data, List.forall_mem_singleton.mpr hfinal⟩⟩

theorem writesErr_of_mem_hostSequence (data : List Byte) : ∀ i ∈ hostSequence data, writesErr i = false :=
  forall_mem_hostSequence (p := fun i => writesErr i = false) rfl (fun _ => rfl) (fun _ => rfl) rfl data

/-! ## What no command of a sequence writes -/

/-- What each command of a sequence keeps, the sequence keeps. -/
theorem execAll_keeps {α : Type} {f : State → α} (hkeep : ∀ i ∈ is, ∀ {s t}, exec i s = .next t → f t = f s)
    (h : execAll is s = .next t) : f t = f s := by
  induction is generalizing s with
  | nil => cases h; rfl
  | cons i is ih =>
    obtain ⟨hi, his⟩ := List.forall_mem_cons.mp hkeep
    obtain ⟨r, hr, hrt⟩ := execAll_cons_eq_next.mp h
    exact (ih his hrt).trans (hi hr)

theorem execAll_err_of_not_written (his : ∀ i ∈ is, writesErr i = false) (h : execAll is s = .next t) : t.err = s.err :=
  execAll_keeps (fun i hi _ _ ht => exec_err_of_not_written ht (his i hi)) h

theorem execAll_par_of_not_written (his : ∀ i ∈ is, writesPar i = false) (h : execAll is s = .next t) : t.par = s.par :=
  execAll_keeps (fun i hi _ _ ht => exec_par_of_not_written ht (his i hi)) h

/-! ## The canonical host sequence at work (R85, R89) -/

/-- The equivalence contract from any state (R89). -/
theorem execAll_hostSequence (data : List Byte) (s : State) :
    ∃ t, execAll (hostSequence data) s = .next t ∧ t.res = checksumRef data ∧ t.resValid = true ∧ t.err = s.err := by
  obtain ⟨t, ht, hres, hvalid⟩ := execAll_clr_final (hostLoops (data.length / 32) data) s
  rw [streamAfterAll_hostLoops (Nat.mul_div_le _ _)] at hres
  exact ⟨t, ht, hres, hvalid, execAll_err_of_not_written (writesErr_of_mem_hostSequence data) ht⟩

/-- Settles O50: the loops absorb the data in order between a CLR and a FINAL, and no command among them is reserved. -/
theorem hostSequenceComputesTheReference : Obligations.HostSequenceComputesTheReference := by
  unfold Obligations.HostSequenceComputesTheReference
  exact fun data => ⟨length_hostSequence data, streamAfterAll_hostSequence data [], execAll_hostSequence data⟩

/-- In the loops only CHUNKs stand before a CHUNK, so nothing there writes PAR. -/
theorem writesPar_of_before_chunk {n : Nat} {rest : List Byte} {before after : List Instr} {bytes : Chunk}
    (h : hostLoops n rest ++ [.final] = before ++ .chunk bytes :: after) : ∀ i ∈ before, writesPar i = false := by
  induction n generalizing rest before with
  | zero =>
    have hmem : Instr.chunk bytes ∈ hostLoops 0 rest ++ [.final] := h ▸ List.mem_append_right _ (List.mem_cons_self ..)
    simp [hostLoops] at hmem
  | succ n ih =>
    cases before with
    | nil => exact List.forall_mem_nil _
    | cons i before =>
      obtain ⟨rfl, htail⟩ := List.cons.inj h
      exact List.forall_mem_cons.mpr ⟨rfl, ih htail⟩

/-- Settles O51: the CLR leaves PAR = 0, and the CHUNKs between it and the CHUNK at hand keep it. -/
theorem canonicalChunksRunAtEvenParity : Obligations.CanonicalChunksRunAtEvenParity := by
  unfold Obligations.CanonicalChunksRunAtEvenParity
  intro data before after bytes s t hseq ht
  cases before with
  | nil => simp [hostSequence] at hseq
  | cons i before =>
    obtain ⟨rfl, hloops⟩ := List.cons.inj hseq
    obtain ⟨r, hr, hrt⟩ := execAll_cons_eq_next.mp ht
    rw [execAll_par_of_not_written (writesPar_of_before_chunk hloops) hrt]
    exact (represents_of_clr hr).parity

end Sys2Proof.Machine
end

section
/-! PROOF. Runs that end: a held command is accepted and the queue drains, after finitely many steps, and the elements that the
commands in flight lead to are kept on the way (R42, R111, R117). So a host that presents a sequence, each command held until it is
accepted, comes to the sequence's outcome at the ports (R85, R89, R112). -/

namespace Sys2Proof.Machine

variable {goal goal' : State → Prop} {s t u u' : State}

/-! ## Reaching a state -/

/-- After finitely many steps from `s` there is a state with the property. -/
def State.Reaches (s : State) (goal : State → Prop) : Prop := ∃ k t, runSteps k s = .next t ∧ goal t

theorem reaches_here (h : goal s) : s.Reaches goal := ⟨0, s, rfl, h⟩

theorem reaches_of_step (hstep : step s = .next t) (h : t.Reaches goal) : s.Reaches goal := by
  obtain ⟨k, r, hrun, hr⟩ := h
  exact ⟨k + 1, r, (runSteps_of_step hstep).trans hrun, hr⟩

theorem reaches_trans (h : s.Reaches goal) (hgoal : ∀ {t}, goal t → t.Reaches goal') : s.Reaches goal' := by
  obtain ⟨k, t, hrun, ht⟩ := h
  induction k generalizing s with
  | zero => cases hrun; exact hgoal ht
  | succ k ih =>
    unfold runSteps at hrun
    split at hrun
    · next r hstep => exact reaches_of_step hstep (ih hrun)
    · cases hrun
    · cases hrun

/-- An invariant under which every step short of the goal lowers a measure leads to the goal. -/
theorem reaches_of_measure {inv : State → Prop} (measure : State → Nat)
    (hstep : ∀ s, inv s → ¬goal s → ∃ t, step s = .next t ∧ inv t ∧ measure t < measure s) (hs : inv s) :
    s.Reaches fun t => inv t ∧ goal t := by
  induction hm : measure s using Nat.strong_induction_on generalizing s with
  | _ m ih =>
    by_cases hgoal : goal s
    · exact reaches_here ⟨hs, hgoal⟩
    · obtain ⟨t, ht, hinv, hlt⟩ := hstep s hs hgoal
      exact reaches_of_step ht (ih (measure t) (hm ▸ hlt) hinv rfl)

/-! ## The steps that the commands in flight still take -/

/-- For each command the edges before its effect, and its effect. -/
def workLeft (ps : List Pending) : Nat := (ps.map fun p => p.lag + 1).sum

theorem workLeft_cons (p : Pending) (ps : List Pending) : workLeft (p :: ps) = p.lag + 1 + workLeft ps := rfl

theorem workLeft_age_le (ps : List Pending) : workLeft (ps.map Pending.age) ≤ workLeft ps := by
  induction ps with
  | nil => exact Nat.le_refl _
  | cons p ps ih =>
    have hlag : p.age.lag = p.lag - 1 := rfl
    rw [List.map_cons, workLeft_cons, workLeft_cons]
    omega

theorem workLeft_tail_lt_of_due {w : CmdWord} (hd : s.due = some w) : workLeft s.inFlight.tail < workLeft s.inFlight := by
  obtain ⟨rest, hq⟩ := due_eq_some.mp hd
  rw [hq, List.tail_cons, workLeft_cons]
  omega

/-- An edge brings a command that is not yet due nearer to its effect. -/
theorem workLeft_age_lt_of_not_due (hd : s.due = none) (hne : s.inFlight ≠ []) :
    workLeft (s.inFlight.map Pending.age) < workLeft s.inFlight := by
  obtain ⟨p, ps, hq⟩ := List.exists_cons_of_ne_nil hne
  have hlag : p.age.lag = p.lag - 1 := rfl
  have hpos : p.lag ≠ 0 := fun h0 => by simp [State.due, hq, h0] at hd
  have hle := workLeft_age_le ps
  rw [hq, List.map_cons, workLeft_cons, workLeft_cons]
  omega

/-! ## The outcome of the commands in flight, over steps -/

/-- Once every command in flight has taken effect, the elements are those of `u` (R42). -/
def State.DrainsTo (s u : State) : Prop := ∃ v, execAll s.queue s = .next v ∧ v.elements = u.elements

theorem drainsTo_iff_of_idle (h : s.inFlight = []) : s.DrainsTo u ↔ s.elements = u.elements := by
  simp [State.DrainsTo, State.queue, h]

/-- A command in effect, or an edge that accepts nothing, keeps the outcome. -/
theorem drainsTo_of_step (hstep : step s = .next t) (hreset : ¬(s.due = none ∧ s.pins.rst = true))
    (haccept : ¬(s.due = none ∧ s.accepting = true)) (h : s.DrainsTo u) : t.DrainsTo u := by
  obtain ⟨v, hv, he⟩ := h
  obtain ⟨v', hv', he'⟩ := (stepsKeepAcceptanceOrder s t v hstep hreset hv).2 haccept
  exact ⟨v', hv', he'.trans he⟩

theorem rst_of_accepting (h : s.accepting = true) : s.pins.rst = false := by
  rw [State.accepting, Bool.and_eq_true, Bool.not_eq_true'] at h
  exact h.2

/-- The edge that accepts a command adds its effect to the outcome. -/
theorem drainsTo_of_accepting (hd : s.due = none) (haccept : s.accepting = true) (h : s.DrainsTo u)
    (hu : exec (decode s.pins.word) u = .next u') : s.runEdge.DrainsTo u' := by
  obtain ⟨v, hv, he⟩ := h
  have hr := rst_of_accepting haccept
  obtain ⟨r, v', hr', hv', he'⟩ :=
    (stepsKeepAcceptanceOrder s s.runEdge v (step_of_rst_false hd hr) (by simp [hr]) hv).1 ⟨hd, haccept⟩
  obtain ⟨v'', hv'', he''⟩ := exec_congr_elements hu he
  obtain rfl : v' = v'' := by simpa [hv'] using hv''
  exact ⟨r, hr', he'.trans he''⟩

/-- A due command's step brings the queue nearer to its end and keeps its outcome. -/
theorem step_of_due_lowers_work {w : CmdWord} (hd : s.due = some w) (h : s.DrainsTo u) :
    ∃ t, step s = .next t ∧ t.edges = s.edges ∧ t.stall = s.stall ∧ t.DrainsTo u ∧
      workLeft t.inFlight < workLeft s.inFlight := by
  obtain ⟨t, ht⟩ := exec_total (decode w) s.retire
  obtain ⟨hqueue, hstall, hedges, -⟩ := exec_frame ht
  have hstep : step s = .next t := (step_of_due hd).trans ht
  exact ⟨t, hstep, hedges, hstall, drainsTo_of_step hstep (by simp [hd]) (by simp [hd]) h,
    hqueue ▸ workLeft_tail_lt_of_due hd⟩

theorem inFlight_runEdge_of_not_accepting (h : s.accepting = false) : s.runEdge.inFlight = s.inFlight.map Pending.age := by
  simp [State.accepted, h]

/-! ## A held command is accepted (R117, first item) -/

/-- A held command that is not accepted stays, and it is the stall that keeps it waiting (R111). -/
theorem runEdge_of_held {e : Edge} {rest : List Edge} (hedges : s.edges = e :: rest) (hr : e.rst = false)
    (hvalid : e.cmdValid = true) (hhold : e.hold = true) (hno : s.accepting = false) :
    s.runEdge.edges = s.edges ∧ s.runEdge.stall < s.stall := by
  have hpins : s.pins = e := by rw [State.pins, hedges, List.headD_cons]
  have hstall : s.stall ≠ 0 := by simpa [State.accepting, State.cmdReady, hpins, hr, hvalid] using hno
  constructor
  · simp [State.restEdges, hpins, hr, hvalid, hhold, hno]
  · simp only [State.stall_runEdge, State.nextStall, if_neg hstall]
    omega

/-- Until the held command is accepted, each step is an effect or lowers the stall. -/
theorem reaches_accepting {e : Edge} {rest : List Edge} (hedges : s.edges = e :: rest) (hr : e.rst = false)
    (hvalid : e.cmdValid = true) (hhold : e.hold = true) (h : s.DrainsTo u) :
    s.Reaches fun t => (t.edges = e :: rest ∧ t.DrainsTo u) ∧ t.due = none ∧ t.accepting = true := by
  refine reaches_of_measure (inv := fun t => t.edges = e :: rest ∧ t.DrainsTo u)
    (fun t => t.stall + workLeft t.inFlight) (fun s ⟨hedges, h⟩ hgoal => ?_) ⟨hedges, h⟩
  cases hd : s.due with
  | some w =>
    obtain ⟨t, ht, hedges', hstall, ht', hlt⟩ := step_of_due_lowers_work hd h
    exact ⟨t, ht, ⟨hedges'.trans hedges, ht'⟩, by omega⟩
  | none =>
    have hno : s.accepting = false := Bool.of_not_eq_true fun ha => hgoal ⟨hd, ha⟩
    have hr' : s.pins.rst = false := by rw [State.pins, hedges, List.headD_cons, hr]
    have hstep := step_of_rst_false hd hr'
    obtain ⟨hedges', hstall⟩ := runEdge_of_held hedges hr hvalid hhold hno
    have hle := workLeft_age_le s.inFlight
    refine ⟨_, hstep, ⟨hedges'.trans hedges, drainsTo_of_step hstep (by simp [hr']) (by simp [hno]) h⟩, ?_⟩
    rw [inFlight_runEdge_of_not_accepting hno]
    omega

/-! ## The queue drains once the host is quiet (R117, second item) -/

theorem pins_of_no_edges (h : s.edges = []) : s.pins = Edge.quiet := by rw [State.pins, h, List.headD_nil]

theorem not_accepting_of_no_edges (h : s.edges = []) : s.accepting = false := by
  simp [State.accepting, pins_of_no_edges h, Edge.quiet]

theorem edges_runEdge_of_no_edges (h : s.edges = []) : s.runEdge.edges = [] := by
  simp [State.restEdges, h]

/-- With a quiet host each step is an effect or brings the oldest command nearer to its own. -/
theorem reaches_idle (hedges : s.edges = []) (h : s.DrainsTo u) :
    s.Reaches fun t => (t.edges = [] ∧ t.DrainsTo u) ∧ t.inFlight = [] := by
  refine reaches_of_measure (inv := fun t => t.edges = [] ∧ t.DrainsTo u) (fun t => workLeft t.inFlight)
    (fun s ⟨hedges, h⟩ hbusy => ?_) ⟨hedges, h⟩
  cases hd : s.due with
  | some w =>
    obtain ⟨t, ht, hedges', -, ht', hlt⟩ := step_of_due_lowers_work hd h
    exact ⟨t, ht, ⟨hedges'.trans hedges, ht'⟩, hlt⟩
  | none =>
    have hno := not_accepting_of_no_edges hedges
    have hr : s.pins.rst = false := by rw [pins_of_no_edges hedges]; rfl
    have hstep := step_of_rst_false hd hr
    refine ⟨_, hstep, ⟨edges_runEdge_of_no_edges hedges,
      drainsTo_of_step hstep (by simp [hr]) (by simp [hno]) h⟩, ?_⟩
    rw [inFlight_runEdge_of_not_accepting hno]
    exact workLeft_age_lt_of_not_due hd hbusy

/-! ## A host that presents a sequence -/

theorem word_present_encode (i : Instr) : (Edge.present (encode i)).word = encode i := by
  rw [Edge.word, Edge.present, op_encode, data_encode, encode]

theorem edges_runEdge_of_accepting (h : s.accepting = true) : s.runEdge.edges = s.edges.tail := by
  simp [State.restEdges, h]

/-- Whatever the counts are, the commands presented one after the other take effect in their order, behind those in flight. -/
theorem reaches_outcome_of_presentAll {is : List Instr} (hwf : ∀ i ∈ is, i.wellFormed = true)
    (hedges : s.edges = presentAll is) (h : s.DrainsTo u) (hu : execAll is u = .next u') :
    s.Reaches fun t => t.edges = [] ∧ t.inFlight = [] ∧ t.elements = u'.elements := by
  induction is generalizing s u with
  | nil =>
    cases hu
    refine reaches_trans (reaches_idle hedges h) fun {t} ⟨⟨hquiet, ht⟩, hidle⟩ => ?_
    exact reaches_here ⟨hquiet, hidle, (drainsTo_iff_of_idle hidle).mp ht⟩
  | cons i is ih =>
    obtain ⟨hi, his⟩ := List.forall_mem_cons.mp hwf
    obtain ⟨r, hr, hru⟩ := execAll_cons_eq_next.mp hu
    refine reaches_trans (reaches_accepting hedges rfl rfl rfl h) fun {t} ⟨⟨hheld, ht⟩, hd, haccept⟩ => ?_
    have hword : decode t.pins.word = i := by
      rw [State.pins, hheld, List.headD_cons, word_present_encode]
      exact decodeOfEncodeIsTheCommand i hi
    have hrest : t.runEdge.edges = presentAll is := by
      rw [edges_runEdge_of_accepting haccept, hheld, List.tail_cons]
      rfl
    exact reaches_of_step (step_of_rst_false hd (rst_of_accepting haccept))
      (ih his hrest (drainsTo_of_accepting hd haccept ht (by rw [hword, hr])) hru)

/-! ## What the host reads (R112) -/

theorem wellFormed_of_mem_hostSequence (data : List Byte) : ∀ i ∈ hostSequence data, i.wellFormed = true :=
  forall_mem_hostSequence (p := fun i => i.wellFormed = true) rfl (fun _ => rfl) (fun _ => rfl) rfl data

/-- Settles O54: the sequence's outcome is reached, and with `idle = 1` and nothing presented the ports show it. -/
theorem hostReadsTheReferenceAtThePorts : Obligations.HostReadsTheReferenceAtThePorts := by
  unfold Obligations.HostReadsTheReferenceAtThePorts
  intro data s hidle herr hedges
  obtain ⟨u, hu, hres, hvalid, herr'⟩ := execAll_hostSequence data s
  refine reaches_trans (reaches_outcome_of_presentAll (wellFormed_of_mem_hostSequence data) hedges
    ((drainsTo_iff_of_idle hidle).mpr rfl) hu) fun {t} ⟨hquiet, hdone, helems⟩ => reaches_here ?_
  simp only [State.elements, Elements.mk.injEq] at helems
  obtain ⟨-, -, -, hres', hvalid', herr''⟩ := helems
  have hidle' : t.idle = true := by rw [State.idle, hdone, List.isEmpty_nil]
  have hno := not_accepting_of_no_edges hquiet
  obtain ⟨hresPort, hvalidPort, -, herrPort⟩ := outputsShowTheStateWhileIdle t hidle'
  refine ⟨hquiet, ⟨hidle', ?_, ?_⟩, ?_⟩
  · rw [hvalidPort (by simp [hno]), hvalid', hvalid]
  · rw [herrPort (by simp [hno]), herr'', herr', herr]
  · rw [hresPort (by simp [hno]), hres', hres]

end Sys2Proof.Machine
end

section
/-! PROOF. The exception ReservedCommand: the reserved commands take it, the defined ones never do, and no step stops the machine
(spec/60_exceptions.md R92, R93, R97). -/

namespace Sys2Proof.Machine

variable {i : Instr} {w : CmdWord}

/-! ## The reserved commands (R93) -/

theorem raiseReservedCommand_eq (s : State) : s.raiseReservedCommand = { s with err := true } := rfl

/-- The commands that R17 lists as writing ERR are those that take the exception (R93). -/
theorem exec_of_writesErr (hi : writesErr i = true) (s : State) : exec i s = .next s.raiseReservedCommand := by
  obtain rfl | ⟨op, rfl⟩ := writesErr_iff.mp hi
  · exact exec_reserved7 s
  · exact exec_reservedHigh op s

theorem writesErr_decode_of_reserved (hop : 0x7 ≤ CmdWord.op w) : writesErr (decode w) = true :=
  (writesErr_decode w).trans (decide_eq_true hop)

theorem execAll_singleton (i : Instr) (s : State) : execAll [i] s = exec i s := by
  obtain ⟨t, ht⟩ := exec_total i s
  rw [execAll_cons_of_next ht, execAll_nil, ht]

/-- Settles O26: both rows take the exception, whose whole effect is ERR. -/
theorem reservedRowsCompleteWithErrSet : Obligations.ReservedRowsCompleteWithErrSet := by
  unfold Obligations.ReservedRowsCompleteWithErrSet
  exact ⟨exec_of_writesErr rfl, fun _ => exec_of_writesErr rfl⟩

/-- Settles O25: a word with a reserved opcode decodes to a command that takes the exception, and the next command finds the state
that the exception leaves. -/
theorem reservedOpcodesSetErrOnly : Obligations.ReservedOpcodesSetErrOnly := by
  unfold Obligations.ReservedOpcodesSetErrOnly
  intro w hop
  have hw := writesErr_decode_of_reserved hop
  have hexec := exec_of_writesErr hw
  refine ⟨writesErr_iff.mp hw, fun s => ⟨s.raiseReservedCommand, hexec s, by simp⟩, fun s i => ?_⟩
  rw [execAll_cons_of_next (hexec s), execAll_singleton, raiseReservedCommand_eq]

/-! ## The defined commands and every step (R92, R97) -/

/-- Settles O27: every command completes, and a command other than the reserved ones does not write ERR. -/
theorem definedCommandsRaiseNothing : Obligations.DefinedCommandsRaiseNothing := by
  unfold Obligations.DefinedCommandsRaiseNothing
  intro i s h7 hhigh
  have hi : writesErr i = false := by
    rw [← Bool.not_eq_true, writesErr_iff, not_or, not_exists]
    exact ⟨h7, hhigh⟩
  obtain ⟨t, ht⟩ := exec_total i s
  exact ⟨t, ht, exec_err_of_not_written ht hi⟩

/-- Settles O8: a step runs the due command, which completes, or passes a clock edge. -/
theorem everyStepAnswersANextState : Obligations.EveryStepAnswersANextState := by
  unfold Obligations.EveryStepAnswersANextState
  intro s
  cases hd : s.due with
  | some w => exact step_of_due hd ▸ exec_total (decode w) s.retire
  | none => exact ⟨s.clockEdge, step_of_not_due hd⟩

end Sys2Proof.Machine
end

section
/-! PROOF. Reset at a rising edge, the handshake, and the two runs that end (spec/70_reset_and_hazards.md R106 to R111, R117). -/

namespace Sys2Proof.Machine

variable {s t : State}

/-! ## The reset edge (R106) -/

theorem step_of_rst (hd : s.due = none) (hr : s.pins.rst = true) : step s = .next s.resetEdge := by
  rw [step_of_not_due hd, State.clockEdge, if_pos hr]

theorem cmdReady_of_rst (hr : s.pins.rst = true) : s.cmdReady = false := by
  rw [State.cmdReady, hr, Bool.not_true, Bool.and_false]

/-- A command presented at a reset edge is not kept, held or not. -/
theorem edges_resetEdge_of_rst (hr : s.pins.rst = true) : s.resetEdge.edges = s.edges.tail := by
  simp [State.restEdges, hr]

theorem idle_resetEdge (s : State) : s.resetEdge.idle = true := rfl

theorem represents_resetEdge (s : State) : Represents [] s.resetEdge :=
  represents_of_elements_eq represents_reset (State.elements_resetEdge s)

/-- The handshake: `cmd_valid`, `cmd_ready` and not `rst` (R111). -/
theorem accepting_iff : s.accepting = true ↔ s.pins.cmdValid = true ∧ s.cmdReady = true ∧ s.pins.rst = false := by
  rw [State.accepting, Bool.and_eq_true, Bool.and_eq_true, Bool.not_eq_true', and_assoc]

/-- Settles O2: the step is the reset edge, at which `cmd_ready` is 0 and a held command is dropped. -/
theorem resetEdgeResetsEverything : Obligations.ResetEdgeResetsEverything := by
  unfold Obligations.ResetEdgeResetsEverything
  refine ⟨fun s => ⟨State.elements_resetEdge s, State.inFlight_resetEdge s⟩, fun s hd hr => ?_⟩
  have hstep := step_of_rst hd hr
  have hno : s.accepting = false := Bool.of_not_eq_true fun ha => by simp [rst_of_accepting ha] at hr
  exact ⟨hstep, cmdReady_of_rst hr, hno, s.resetEdge, hstep, rfl, getElem_zeroLanes, rfl, rfl, rfl, rfl, rfl,
    idle_resetEdge s, edges_resetEdge_of_rst hr⟩

/-- Settles O3: the state after the edge represents the empty stream, whose reference FINAL latches. -/
theorem afterResetTheStreamIsEmpty : Obligations.AfterResetTheStreamIsEmpty := by
  unfold Obligations.AfterResetTheStreamIsEmpty
  intro s hd hr
  obtain ⟨hempty, -⟩ := referenceEdgeCases
  obtain ⟨u, hu, hres, hvalid⟩ := exec_final_of_represents (represents_resetEdge s)
  exact ⟨s.resetEdge, step_of_rst hd hr, idle_resetEdge s, represents_resetEdge s, u, hu, hres.trans hempty, hvalid⟩

/-- CLR leads to the reset values but for RES and ERR, which it keeps (R108). -/
theorem elements_of_exec_clr (h : exec .clr s = .next t) :
    t.elements = { State.reset.elements with res := s.res, err := s.err } := by
  cases h
  rfl

/-- Settles O28: the reset edge gives the reset values, and CLR the same but for the two elements it keeps. -/
theorem clrKeepsOnlyResAndErr : Obligations.ClrKeepsOnlyResAndErr := by
  unfold Obligations.ClrKeepsOnlyResAndErr
  intro s hd hr
  exact ⟨_, s.resetEdge, exec_clr s, step_of_rst hd hr, elements_of_exec_clr (exec_clr s), State.res_resetEdge s,
    State.err_resetEdge s⟩

/-! ## Reset from every state (R109, R110) -/

theorem pins_congr (h : t.edges = s.edges) : t.pins = s.pins := by rw [State.pins, State.pins, h]

/-- A due command's step takes it from the queue and leaves the host's edges. -/
theorem step_of_due_shortens_queue {w : CmdWord} (hd : s.due = some w) :
    ∃ t, step s = .next t ∧ t.edges = s.edges ∧ t.inFlight.length < s.inFlight.length := by
  obtain ⟨rest, hq⟩ := due_eq_some.mp hd
  obtain ⟨t, ht⟩ := exec_total (decode w) s.retire
  obtain ⟨hqueue, -, hedges, -⟩ := exec_frame ht
  exact ⟨t, (step_of_due hd).trans ht, hedges, by simp [hqueue, hq]⟩

/-- Settles O4: each due command takes one step and shortens the queue, and when none is due the reset edge comes. -/
theorem resetIsReachedFromEveryState : Obligations.ResetIsReachedFromEveryState := by
  unfold Obligations.ResetIsReachedFromEveryState
  intro s hr
  induction hn : s.inFlight.length using Nat.strong_induction_on generalizing s with
  | _ n ih =>
    cases hd : s.due with
    | none =>
      exact ⟨1, s.resetEdge, Nat.le_add_left 1 n, runSteps_of_step (step_of_rst hd hr), State.elements_resetEdge s,
        State.inFlight_resetEdge s, edges_resetEdge_of_rst hr⟩
    | some w =>
      obtain ⟨t, hstep, hedges, hlt⟩ := step_of_due_shortens_queue hd
      obtain ⟨k, u, hk, hrun, helems, hqueue, hedges'⟩ := ih _ (hn ▸ hlt) t (pins_congr hedges ▸ hr) rfl
      exact ⟨k + 1, u, by omega, (runSteps_of_step hstep).trans hrun, helems, hqueue, hedges ▸ hedges'⟩

/-! ## The handshake at an edge without reset (R111) -/

theorem inFlight_runEdge_of_accepting (h : s.accepting = true) :
    s.runEdge.inFlight = s.inFlight.map Pending.age ++ [⟨s.pins.word, Config.acceptLag s.tick⟩] := by
  rw [State.inFlight_runEdge, State.accepted, if_pos h]

/-- What is not accepted stays on the ports only while the host holds it. -/
theorem edges_runEdge_of_not_accepting (hr : s.pins.rst = false) (hno : s.accepting = false) :
    s.runEdge.edges = if s.pins.hold = true ∧ s.pins.cmdValid = true then s.edges else s.edges.tail := by
  simp [State.restEdges, hr, hno]

/-- Settles O5: with `rst = 0` the edge accepts exactly by the handshake, and the two cases are what it does to the queue and to
the host's edges. -/
theorem commandIsAcceptedExactlyByTheHandshake : Obligations.CommandIsAcceptedExactlyByTheHandshake := by
  unfold Obligations.CommandIsAcceptedExactlyByTheHandshake
  refine ⟨fun s => accepting_iff, fun s hd hr => ?_⟩
  refine ⟨s.runEdge, step_of_rst_false hd hr, State.elements_runEdge s, fun ⟨hvalid, hready⟩ => ?_, fun hno => ?_⟩
  · have ha := accepting_iff.mpr ⟨hvalid, hready, hr⟩
    exact ⟨_, inFlight_runEdge_of_accepting ha, edges_runEdge_of_accepting ha⟩
  · have hna : s.accepting = false := Bool.of_not_eq_true fun ha =>
      have ⟨hvalid, hready, _⟩ := accepting_iff.mp ha
      hno ⟨hvalid, hready⟩
    have hedges := edges_runEdge_of_not_accepting hr hna
    exact ⟨inFlight_runEdge_of_not_accepting hna, fun hheld => hedges.trans (if_pos hheld),
      fun hfree => hedges.trans (if_neg hfree)⟩

/-! ## Liveness (R117) -/

/-- Every sequence of commands completes in every state (R92, R93). -/
theorem execAll_total (is : List Instr) (s : State) : ∃ u, execAll is s = .next u := by
  induction is generalizing s with
  | nil => exact ⟨s, rfl⟩
  | cons i is ih =>
    obtain ⟨t, ht⟩ := exec_total i s
    rw [execAll_cons_of_next ht]
    exact ih t

/-- Settles O12: whatever the commands in flight lead to, the run comes to an edge that accepts the held command. -/
theorem heldCommandIsAcceptedInTheEnd : Obligations.HeldCommandIsAcceptedInTheEnd := by
  unfold Obligations.HeldCommandIsAcceptedInTheEnd
  intro s e rest hedges hr hvalid hhold
  obtain ⟨u, hu⟩ := execAll_total s.queue s
  obtain ⟨k, t, hrun, ⟨hheld, -⟩, hd, haccept⟩ := reaches_accepting hedges hr hvalid hhold ⟨u, hu, rfl⟩
  exact ⟨k, t, hrun, hheld, hd, haccept⟩

/-- Settles O11: the queue drains, and an empty queue has nothing left to change the elements. -/
theorem idleComesOnceTheHostIsQuiet : Obligations.IdleComesOnceTheHostIsQuiet := by
  unfold Obligations.IdleComesOnceTheHostIsQuiet
  intro s u hedges hu
  obtain ⟨k, t, hrun, ⟨-, hdrains⟩, hempty⟩ := reaches_idle hedges ⟨u, hu, rfl⟩
  exact ⟨k, t, hrun, List.isEmpty_iff.mpr hempty, (drainsTo_iff_of_idle hempty).mp hdrains⟩

end Sys2Proof.Machine
end
